-- ==== Sys2Proof/Word.lean ====
section
/-! DEFINITION. The two word types of the CORE: every register half, opcode and memory byte is 8 bits, every register
pair, PC, SP and address is 16 bits (00_scope.md R10, 10_state.md R27). -/

namespace Sys2Proof

/-- An 8-bit value: a register half, an opcode, a byte of memory (R10). -/
abbrev Byte := BitVec 8

/-- A 16-bit value: a register pair, PC, SP, an address the CORE forms (R10, R51). -/
abbrev Word := BitVec 16

end Sys2Proof
end

