-- ==== Sys2Proof/Syntax.lean ====
section
/-! DEFINITION. The CORE opcode set as syntax (30_encoding.md R71), the names of its registers and flags
(10_state.md R20 to R30), and the form of one row of its opcode map (R71, R75). -/

namespace Sys2Proof

/-- The CORE opcode set: exactly two instructions, with no operand bits (R71, R73). -/
inductive Instr where
  /-- `NOP`, opcode 0x00 (R110). -/
  | nop
  /-- `ADD A, B`, opcode 0x80: destination A and source B are fixed by the opcode (R73, R124). -/
  | addAB
  deriving DecidableEq, Repr

/-- The 8-bit registers, each a half of a pair (R22). -/
inductive Reg8 where
  | a | f | b | c | d | e | h | l
  deriving DecidableEq, Repr

/-- The 16-bit registers: the six storage cells of the register file (R20). -/
inductive Reg16 where
  | af | bc | de | hl | pc | sp
  deriving DecidableEq, Repr

/-- The four flags: Zero, Subtract, Half-Carry, Carry (R30). -/
inductive Flag where
  | z | n | h | c
  deriving DecidableEq, Repr

/-- One row of the opcode map: an opcode byte matches when its bits under `mask` equal `pattern` (R71). -/
structure OpcodeRow where
  mask : Byte
  pattern : Byte
  instr : Instr
  deriving DecidableEq, Repr

end Sys2Proof
end

