-- ==== Sys2Proof/WellFormed.lean ====
section
/-! DEFINITION. Which terms are well formed. An instruction of the CORE has no operand that could be out of range
(30_encoding.md R73), so every `Instr` is; a row of the opcode map compares all 8 bits (R71), so a row has a check. -/

namespace Sys2Proof

/-- Every instruction is well formed: no immediate and no register field exists (R73). -/
def Instr.wellFormed : Instr → Bool
  | .nop => true
  | .addAB => true

/-- A row of the opcode map is matched "by comparing all 8 bits: the mask is 0xFF" (R71). -/
def OpcodeRow.wellFormed (r : OpcodeRow) : Bool := r.mask == 0xFF#8

end Sys2Proof
end

