-- ==== Sys2Proof/Decode.lean ====
section
/-! DEFINITION. The Opcode Dispatcher's map and its decoder (30_encoding.md R71 to R76), then the encoder and the
spelling of a byte in a listing (R77). -/

namespace Sys2Proof

/-- What decoding an opcode byte gives: one of the two instructions, or UNIMPLEMENTED with the byte (R75). -/
inductive Decoded where
  | instr (i : Instr)
  | unimplemented (op : Byte)
  deriving DecidableEq, Repr

/-- The two rows of the opcode map (R71, opcode_table.json). -/
def opcodeTable : List OpcodeRow :=
  [ { mask := 0xFF#8, pattern := 0x00#8, instr := .nop },
    { mask := 0xFF#8, pattern := 0x80#8, instr := .addAB } ]

/-- Whether an opcode byte selects this row (R71). -/
def OpcodeRow.covers (r : OpcodeRow) (op : Byte) : Bool :=
  op &&& r.mask == r.pattern

/-- `decode` of R75: total on every byte, one table keyed by the byte's value and a final default that answers
UNIMPLEMENTED with the byte (R72, R74, D21). -/
def decode (op : Byte) : Decoded :=
  match opcodeTable.find? (fun r => r.covers op) with
  | some r => .instr r.instr
  | none => .unimplemented op

/-- The byte of an instruction (R71). Every instruction is one byte long (R70). -/
def encode : Instr → Byte
  | .nop => 0x00#8
  | .addAB => 0x80#8

/-- The instruction the decoder reads from an instruction word of the opcode table, `nbits` wide: the CORE fetches its
first byte, bits 7..0, and nothing more (R70). -/
def decodeTableWord (nbits w : Nat) : Option Instr :=
  match decode (BitVec.ofNat 8 (w % 2 ^ nbits)) with
  | .instr i => some i
  | .unimplemented _ => none

/-- One upper-case hexadecimal digit, for the spelling `0xNN` (R12, R77). -/
def hexDigit (n : Nat) : Char :=
  "0123456789ABCDEF".toList.getD n '0'

/-- How a listing spells a byte: `NOP`, `ADD A, B`, or `DB 0xNN` for an unimplemented opcode (R77, D2, log 25). -/
def listing (op : Byte) : String :=
  match decode op with
  | .instr .nop => "NOP"
  | .instr .addAB => "ADD A, B"
  | .unimplemented _ => "DB 0x" ++ String.ofList [hexDigit (op.toNat / 16), hexDigit (op.toNat % 16)]

end Sys2Proof
end

