-- ==== Sys2Proof/Config.lean ====
section
/-! DEFINITION. The parameters of 00_scope.md R11: what the spec fixes about them, what the model picks for
State.reset (each with its log entry), and the values the spec leaves free (opaque, so that no proof sees them). -/

namespace Sys2Proof.Config

/-- The smallest store the spec allows: `MEM_SIZE >= 0x10000` (R10, R11). -/
def minMemSize : Nat := 0x10000

/-- The size of the store at State.reset. DESIGN CHOICE, unsafe (log 3): the caller's value (R11, D9). -/
def resetMemSize : Nat := 0x10000

/-- PC at State.reset. DESIGN CHOICE, unsafe (log 2): INIT_PC is the caller's (R170, R171). -/
def resetPc : Word := 0x0000#16

/-- AF, BC, DE, HL and SP at State.reset. DESIGN CHOICE, unsafe (log 1): the caller's values, else free (R40, D8). -/
def resetRegister : Word := 0x0000#16

/-- What a byte that no memory cell lists reads as. DESIGN CHOICE, unsafe (log 4): INIT_MEM is the caller's (R50, D19). -/
def unlistedByte : Byte := 0x00#8

/-- The order of bytes in a 16-bit memory access, should one ever exist (R57). -/
inductive ByteOrder where
  | littleEndian | bigEndian
  deriving DecidableEq, Repr, Inhabited

/-- BYTE_ORDER: OPEN, and read by no rule in scope (R11, R57, D11), so by no definition of this model (log 13). -/
opaque byteOrder : ByteOrder

/-- AF's free value in the construction of that number, where the caller supplies none (R40, D8, log 16). -/
opaque freeAf : Nat → Word
/-- BC's free value, as `freeAf` (R40, D8, log 16). -/
opaque freeBc : Nat → Word
/-- DE's free value, as `freeAf` (R40, D8, log 16). -/
opaque freeDe : Nat → Word
/-- HL's free value, as `freeAf` (R40, D8, log 16). -/
opaque freeHl : Nat → Word
/-- SP's free value, as `freeAf` (R40, D8, log 16). -/
opaque freeSp : Nat → Word

end Sys2Proof.Config
end

