-- ==== Sys2Proof/Machine/State.lean ====
section
/-! DEFINITION. Everything the spec gives the machine to hold (10_state.md R40), as plain data: six 16-bit cells, the
run status and the store; the reasons a Step can stop; the state after reset. -/

namespace Sys2Proof.Machine

/-- Which access an OutOfRangeAddress record reports (R142, D10, log 14). -/
inductive AccessKind where
  | fetch | read | write
  deriving DecidableEq, Repr

/-- The CORE's error records: exactly these two kinds (R143). Both are terminal, and both are the spec's own faults, so
stopping with one is safe. -/
inductive Fault where
  /-- Raised by dispatch on any opcode byte other than 0x00 and 0x80, with the byte and the address it was fetched from
  (R141). Safe: the spec's own outcome. -/
  | unimplementedOpcode (opcode : Byte) (addr : Word)
  /-- Raised by MemRead and MemWrite at an address at or beyond MEM_SIZE, with the address and the kind of access
  (R142). Safe: the spec's own outcome. -/
  | outOfRangeAddress (addr : Word) (kind : AccessKind)
  deriving DecidableEq, Repr

/-- The reasons a model may refuse an instruction. -/
inductive Refusal where
  /-- Raised by nothing: every instruction of the opcode table has its meaning. Safe. -/
  | notModelled (mnemonic : String)
  deriving DecidableEq, Repr

/-- RUN, the run status (R35): Running, or Faulted with the error record. -/
inductive RunStatus where
  | running
  | faulted (error : Fault)
  deriving DecidableEq, Repr

/-- The Memory Bus's backing store (R50): its size MEM_SIZE, and its bytes as the list of those that differ from
`Config.unlistedByte`, by rising address (`Memory.wf`). -/
structure Memory where
  size : Nat
  cells : List Host.Cell
  deriving DecidableEq, Repr

/-- The state of one CORE instance (R20, R35, R40, R50). The pairs are the only storage of their halves (R20), and bits
7..4 of AF the only storage of the flags (R32). -/
structure State where
  /-- A (bits 15:8) and F (bits 7:0) (R21); bits 3:0 are hard-wired zero (R31). -/
  af : Word
  /-- B and C (R22). -/
  bc : Word
  /-- D and E (R23). -/
  de : Word
  /-- H and L (R23). -/
  hl : Word
  /-- The address of the next byte to fetch (R28). -/
  pc : Word
  /-- Reserved for call and stack opcodes; no instruction reads or writes it (R29). -/
  sp : Word
  /-- RUN (R35). -/
  run : RunStatus
  /-- The store (R50). -/
  mem : Memory
  deriving DecidableEq, Repr

namespace State

/-- Replace the AF cell. -/
def setAf (s : State) (v : Word) : State := { s with af := v }
/-- Replace the BC cell. -/
def setBc (s : State) (v : Word) : State := { s with bc := v }
/-- Replace the DE cell. -/
def setDe (s : State) (v : Word) : State := { s with de := v }
/-- Replace the HL cell. -/
def setHl (s : State) (v : Word) : State := { s with hl := v }
/-- Replace PC. -/
def setPc (s : State) (v : Word) : State := { s with pc := v }
/-- Replace SP. -/
def setSp (s : State) (v : Word) : State := { s with sp := v }
/-- Replace RUN. -/
def setRun (s : State) (r : RunStatus) : State := { s with run := r }
/-- Replace the store. -/
def setMem (s : State) (m : Memory) : State := { s with mem := m }

/-- The machine right after construction, by a caller that supplies a store of the smallest size with nothing listed,
INIT_PC 0x0000 and zero for every register (R40, R170; log 1 to 4). RUN is Running and AF bits 3:0 are zero because the
spec says so (R35, R31). -/
def reset : State where
  af := Config.resetRegister
  bc := Config.resetRegister
  de := Config.resetRegister
  hl := Config.resetRegister
  pc := Config.resetPc
  sp := Config.resetRegister
  run := .running
  mem := { size := Config.resetMemSize, cells := [] }

end State

end Sys2Proof.Machine
end

