-- ==== Sys2Proof/Machine/Operands.lean ====
section
/-! DEFINITION. The register file's accessors (10_state.md R20 to R29, R31): every read and write of an 8-bit or 16-bit
register goes through these. All are total (R27). AF bits 3:0 are hard-wired zero: they read as zero and a written value
there is discarded (R31, D6, log 8). -/

namespace Sys2Proof.Machine

/-- Bits 15:8 of a pair: `pair >> 8` (R22). -/
def highByte (pair : Word) : Byte := (pair >>> 8).setWidth 8

/-- Bits 7:0 of a pair: `pair & 0x00FF` (R22). -/
def lowByte (pair : Word) : Byte := (pair &&& 0x00FF#16).setWidth 8

/-- `(newByte << 8) | (pair & 0x00FF)` (R24). -/
def withHighByte (pair : Word) (v : Byte) : Word := (v.setWidth 16 <<< 8) ||| (pair &&& 0x00FF#16)

/-- `(pair & 0xFF00) | newByte` (R25). -/
def withLowByte (pair : Word) (v : Byte) : Word := (pair &&& 0xFF00#16) ||| v.setWidth 16

/-- The bits of F that exist: 7..4 (R30, R31). -/
def flagsMask : Byte := 0xF0#8

/-- The bits of AF that exist: A, and bits 7..4 of F (R31). -/
def afMask : Word := 0xFFF0#16

/-- Read a 16-bit register (R20, R31). -/
def readReg16 : Reg16 → State → Word
  | .af, s => s.af &&& afMask
  | .bc, s => s.bc
  | .de, s => s.de
  | .hl, s => s.hl
  | .pc, s => s.pc
  | .sp, s => s.sp

/-- Write a 16-bit register: the whole cell (R26), but for AF's hard-wired bits (R31). -/
def writeReg16 : Reg16 → Word → State → State
  | .af, v, s => s.setAf (v &&& afMask)
  | .bc, v, s => s.setBc v
  | .de, v, s => s.setDe v
  | .hl, v, s => s.setHl v
  | .pc, v, s => s.setPc v
  | .sp, v, s => s.setSp v

/-- Read an 8-bit register from its pair (R22, R23). F is the low byte of AF as AF reads, so its bits 3:0 are zero (R31). -/
def readReg8 : Reg8 → State → Byte
  | .a, s => highByte (readReg16 .af s)
  | .f, s => lowByte (readReg16 .af s)
  | .b, s => highByte (readReg16 .bc s)
  | .c, s => lowByte (readReg16 .bc s)
  | .d, s => highByte (readReg16 .de s)
  | .e, s => lowByte (readReg16 .de s)
  | .h, s => highByte (readReg16 .hl s)
  | .l, s => lowByte (readReg16 .hl s)

/-- Write an 8-bit register: its half of the pair, the other half unchanged (R24, R25); F discards bits 3:0 (R31). -/
def writeReg8 : Reg8 → Byte → State → State
  | .a, v, s => s.setAf (withHighByte s.af v)
  | .f, v, s => s.setAf (withLowByte s.af (v &&& flagsMask))
  | .b, v, s => s.setBc (withHighByte s.bc v)
  | .c, v, s => s.setBc (withLowByte s.bc v)
  | .d, v, s => s.setDe (withHighByte s.de v)
  | .e, v, s => s.setDe (withLowByte s.de v)
  | .h, v, s => s.setHl (withHighByte s.hl v)
  | .l, v, s => s.setHl (withLowByte s.hl v)

end Sys2Proof.Machine
end

