-- ==== Sys2Proof/Machine/Flags.lean ====
section
/-! DEFINITION. The Flag Model (10_state.md R30 to R34) and the flag ALU (42_arith.md R120 to R123). The flags have one
storage, bits 7..4 of AF; the four booleans are names for those bits (R32, D7, log 9). -/

namespace Sys2Proof.Machine

/-- The four flag booleans, as a value an operation passes around; State holds none (R32). -/
structure Flags where
  z : Bool
  n : Bool
  h : Bool
  c : Bool
  deriving DecidableEq, Repr

/-- The bit of F that holds a flag (R30). -/
def flagBit : Flag → Nat
  | .z => 7
  | .n => 6
  | .h => 5
  | .c => 4

/-- The one bit of AF that holds a flag (R30, R33). -/
def flagInAf (f : Flag) : Word := 1#16 <<< flagBit f

/-- A boolean used as a bit (R13). -/
def boolBit (b : Bool) : Byte := if b then 1#8 else 0#8

/-- `(Z<<7) | (N<<6) | (H<<5) | (C<<4)` (R34). -/
def packFlags (fl : Flags) : Byte :=
  (boolBit fl.z <<< 7) ||| (boolBit fl.n <<< 6) ||| (boolBit fl.h <<< 5) ||| (boolBit fl.c <<< 4)

/-- The four booleans of a flags byte (R30). -/
def unpackFlags (f : Byte) : Flags where
  z := f.getLsbD 7
  n := f.getLsbD 6
  h := f.getLsbD 5
  c := f.getLsbD 4

/-- FLAG.Z, FLAG.N, FLAG.H, FLAG.C: one flag, read from F (R30). -/
def readFlag (f : Flag) (s : State) : Bool := (readReg8 .f s).getLsbD (flagBit f)

/-- A host write of one flag: the matching bit of F, every other bit of AF unchanged (R33). -/
def writeFlag (f : Flag) (b : Bool) (s : State) : State :=
  s.setAf (if b then s.af ||| flagInAf f else s.af &&& ~~~(flagInAf f))

/-- All four booleans as F holds them (R30, R32). -/
def readFlags (s : State) : Flags := unpackFlags (readReg8 .f s)

/-- Put four booleans into F, "leaving the accumulator half untouched" (R32, R124). -/
def writeFlags (fl : Flags) (s : State) : State := writeReg8 .f (packFlags fl) s

/-- `SyncToRegister()` (R32): pack the booleans and write them into F. With one storage the booleans are F's own bits. -/
def syncToRegister (s : State) : State := writeFlags (readFlags s) s

/-- `SyncFromRegister()` (R32): unpack F and set each boolean. With one storage setting a boolean writes its bit of F. -/
def syncFromRegister (s : State) : State :=
  let fl := unpackFlags (readReg8 .f s)
  writeFlag .c fl.c (writeFlag .h fl.h (writeFlag .n fl.n (writeFlag .z fl.z s)))

/-- What the flag ALU answers: an 8-bit result and four flags (R121). -/
structure AluResult where
  result : Byte
  flags : Flags
  deriving DecidableEq, Repr

/-- `ALU_ADD8(dst, src)`, the additive policy (R121): exact sum, low 8 bits, carries out of bit 3 and bit 7. It reads no
flag. -/
def aluAdd8 (dst src : Byte) : AluResult :=
  let sum := dst.toNat + src.toNat
  let r := BitVec.ofNat 8 sum
  { result := r
    flags :=
      { z := decide (r = 0#8)
        n := false
        h := decide (0x0F < (dst &&& 0x0F#8).toNat + (src &&& 0x0F#8).toNat)
        c := decide (0xFF < sum) } }

/-- `ALU_SUB8(dst, src)`, the subtractive policy (R123). No opcode reaches it. N is the source's; H, C and Z are the
spec's reading (D17), from general knowledge: PRESUMED (log 15). -/
def aluSub8 (dst src : Byte) : AluResult :=
  let r := BitVec.ofInt 8 ((dst.toNat : Int) - (src.toNat : Int))
  { result := r
    flags :=
      { z := decide (r = 0#8)
        n := true
        h := decide ((dst &&& 0x0F#8).toNat < (src &&& 0x0F#8).toNat)
        c := decide (dst.toNat < src.toNat) } }

end Sys2Proof.Machine
end

