-- ==== Sys2Proof/Machine/Arith.lean ====
section
/-! DEFINITION. The arithmetic family (42_arith.md): ADD A, B. A meaning sees PC already advanced (40_engine.md R94). -/

namespace Sys2Proof.Machine

/-- `ADD A, B` (R124): ALU_ADD8 of A and B; the result into A, then the four flags into F with bits 3:0 zero. -/
def execAddAB (s : State) : Host.Outcome State Fault Refusal :=
  let r := aluAdd8 (readReg8 .a s) (readReg8 .b s)
  .next (writeFlags r.flags (writeReg8 .a r.result s))

end Sys2Proof.Machine
end

