-- ==== Sys2Proof/Machine/Control.lean ====
section
/-! DEFINITION. The control family (41_control.md): NOP. A meaning sees PC already advanced (40_engine.md R94). -/

namespace Sys2Proof.Machine

/-- `NOP` (R110): no register, flag or memory byte is read or written. -/
def execNop (s : State) : Host.Outcome State Fault Refusal := .next s

end Sys2Proof.Machine
end

