-- ==== Sys2Proof/Machine/Dispatch.lean ====
section
/-! DEFINITION. The execute phase's dispatch (40_engine.md R93): one arm per instruction, one direct call of its
meaning. -/

namespace Sys2Proof.Machine

/-- Run an instruction's meaning on the state after the fetch's PC increment (R93, R94). -/
def exec (i : Instr) (s : State) : Host.Outcome State Fault Refusal :=
  match i with
  | .nop => Sys2Proof.Machine.execNop s
  | .addAB => Sys2Proof.Machine.execAddAB s

end Sys2Proof.Machine
end

