-- ==== Sys2Proof/Machine/Ops.lean ====
section
/-! DEFINITION. The shared operations over memory and the engine's own registers: the store's bytes, MemRead and
MemWrite (20_memory.md R52, R53), the PC increment (40_engine.md R92) and fault entry (60_exceptions.md R146). There is
no return from a fault to model (R147). -/

namespace Sys2Proof.Machine

/-- The byte listed at address `a`, or what an unlisted byte reads as. -/
def cellAt : List Host.Cell → Nat → Byte
  | [], _ => Config.unlistedByte
  | (b, w) :: rest, a => if a = b then w else cellAt rest a

/-- The cells with byte `a` set to `v`, in the same canonical form: a byte equal to what an unlisted one reads as is not
listed. -/
def setCell : List Host.Cell → Nat → Byte → List Host.Cell
  | [], a, v => if v = Config.unlistedByte then [] else [(a, v)]
  | (b, w) :: rest, a, v =>
    if a < b then
      if v = Config.unlistedByte then (b, w) :: rest else (a, v) :: (b, w) :: rest
    else if a = b then
      if v = Config.unlistedByte then rest else (a, v) :: rest
    else (b, w) :: setCell rest a v

/-- `MEM[a]`, with no bounds check: the byte the store holds at `a` (R50). -/
def Memory.byteAt (m : Memory) (a : Nat) : Byte := cellAt m.cells a

/-- The store with byte `a` replaced, with no bounds check; its size never changes (R50). -/
def Memory.setByte (m : Memory) (a : Nat) (v : Byte) : Memory := { m with cells := setCell m.cells a v }

/-- The canonical form of a store: addresses strictly rising, each inside the store, no entry equal to what an unlisted
byte reads as. -/
abbrev Memory.wf (m : Memory) : Prop :=
  (m.cells.map Prod.fst).Pairwise (· < ·) ∧ ∀ c ∈ m.cells, c.1 < m.size ∧ c.2 ≠ Config.unlistedByte

/-- `MemRead(addr, 1)` (R52). `kind` is `fetch` for the engine's fetch and `read` otherwise. -/
def memRead (m : Memory) (addr : Word) (kind : AccessKind) : Except Fault Byte :=
  if m.size ≤ addr.toNat then .error (.outOfRangeAddress addr kind) else .ok (m.byteAt addr.toNat)

/-- `MemWrite(addr, 1, v)` (R53). No instruction calls it (R56); the host does (R62). -/
def memWrite (m : Memory) (addr : Word) (v : Byte) : Except Fault Memory :=
  if m.size ≤ addr.toNat then .error (.outOfRangeAddress addr .write) else .ok (m.setByte addr.toNat v)

/-- `PC <- (PC + 1) mod 2^16` (R92); the wrap at 0xFFFF is the spec's decision D3 (log 10). -/
def advancePc (s : State) : State := s.setPc (s.pc + 1#16)

/-- Fault entry (R96, R140, R146): everything is as it was in `before`, the state before the faulting Step, and RUN
records the error. PC is thereby the fetch address (D4, log 11). -/
def enterFault (before : State) (e : Fault) : State := before.setRun (.faulted e)

end Sys2Proof.Machine
end

