-- ==== Sys2Proof/Machine/Engine.lean ====
section
/-! DEFINITION. The Execution Engine (40_engine.md R90 to R97): one Step as the spec writes it, with the state it leaves
AND its outcome (R90), the fault's included. -/

namespace Sys2Proof.Machine

/-- A Step's outcome: Ok or Fault(error) (R90). -/
inductive StepOutcome where
  | ok
  | fault (error : Fault)
  /-- A meaning refused the instruction. The spec has no such outcome and no meaning of this model gives it. -/
  | refused (reason : Refusal)
  deriving DecidableEq, Repr

/-- The state a Step leaves, together with its outcome (R90). -/
structure StepResult where
  state : State
  outcome : StepOutcome
  deriving DecidableEq, Repr

/-- A fault in a Step that began in `before` (R96): entry and outcome. -/
def raise (before : State) (e : Fault) : StepResult := { state := enterFault before e, outcome := .fault e }

/-- The end of a Step that began in `before` and ran a meaning (R94, R96). No meaning in scope faults (R145) or refuses;
were one to, the fault would be atomic like any other (log 23). -/
def finishStep (before : State) : Host.Outcome State Fault Refusal → StepResult
  | .next s' => { state := s', outcome := .ok }
  | .fault e => raise before e
  | .refused r => { state := before, outcome := .refused r }

/-- Dispatch and execute the fetched byte of a Step that began in `before` (R92 to R95). -/
def dispatchByte (before : State) (op : Byte) : StepResult :=
  match decode op with
  | .instr i => finishStep before (exec i (advancePc before))
  | .unimplemented op' => raise before (.unimplementedOpcode op' before.pc)

/-- `Step()` (R95): a faulted instance repeats its fault and changes nothing (R97); otherwise fetch at PC (R91), advance
PC, dispatch and execute, or fail atomically (R96). -/
def stepFull (s : State) : StepResult :=
  match s.run with
  | .faulted e => { state := s, outcome := .fault e }
  | .running =>
    match memRead s.mem s.pc .fetch with
    | .error e => raise s e
    | .ok op => dispatchByte s op

/-- A Step's result as one of the host's three outcomes: Ok is the next state, Fault(error) the fault with its record
(log 7). -/
def hostOutcome (r : StepResult) : Host.Outcome State Fault Refusal :=
  match r.outcome with
  | .ok => .next r.state
  | .fault e => .fault e
  | .refused x => .refused x

/-- A state with an instruction byte stored where the next Step fetches, ready to run it. It stands for the caller's load
and construction (R170, R173, log 5), so RUN is Running; nothing else changes. -/
def placeAtFetch (s : State) (op : Byte) : State :=
  (s.setMem (s.mem.setByte s.pc.toNat op)).setRun .running

end Sys2Proof.Machine
end

