-- ==== Sys2Proof/Machine/Step.lean ====
section
/-! DEFINITION. The host's view of one Step (40_engine.md R95), and of a program byte placed for it. -/

namespace Sys2Proof.Machine

/-- One Step: its next state, or the fault it ends in (R90, R95). -/
def step (s : State) : Host.Outcome State Fault Refusal := hostOutcome (stepFull s)

/-- `s` with an instruction word of the opcode table stored where the next Step fetches. An instruction is its first byte
(R70). -/
def State.withFetchWord (s : State) (nbits w : Nat) : State := placeAtFetch s (BitVec.ofNat 8 (w % 2 ^ nbits))

end Sys2Proof.Machine
end

