-- ==== Sys2Proof/Machine/Construct.lean ====
section
/-! DEFINITION. Construction, the CORE's only reset (70_reset_and_hazards.md R170 to R173): from what the caller
supplies to the state before the first Step. -/

namespace Sys2Proof.Machine

/-- What the caller supplies (R11, R170): a populated store, INIT_PC, and any of AF, BC, DE, HL, SP. `launchNo` is the
model's own: it gives each construction free values of its own (log 16). -/
structure Launch where
  mem : Memory
  initPc : Word
  initAf : Option Word
  initBc : Option Word
  initDe : Option Word
  initHl : Option Word
  initSp : Option Word
  launchNo : Nat
  deriving DecidableEq, Repr

/-- The caller's duty before the first Step: a store of at least 0x10000 bytes (R11, R173), here in canonical form. -/
abbrev Launch.wellFormed (l : Launch) : Prop := Config.minMemSize ≤ l.mem.size ∧ l.mem.wf

/-- Construction (R170): PC is INIT_PC, each supplied register its value, each other register a free value (D8), RUN
Running; AF bits 3:0 are cleared (R31). -/
def construct (l : Launch) : State where
  af := l.initAf.getD (Config.freeAf l.launchNo) &&& afMask
  bc := l.initBc.getD (Config.freeBc l.launchNo)
  de := l.initDe.getD (Config.freeDe l.launchNo)
  hl := l.initHl.getD (Config.freeHl l.launchNo)
  pc := l.initPc
  sp := l.initSp.getD (Config.freeSp l.launchNo)
  run := .running
  mem := l.mem

/-- The caller that State.reset stands for: the smallest store with nothing listed, INIT_PC 0x0000, and zero for every
register (log 1 to 4). -/
def resetLaunch : Launch where
  mem := { size := Config.resetMemSize, cells := [] }
  initPc := Config.resetPc
  initAf := some Config.resetRegister
  initBc := some Config.resetRegister
  initDe := some Config.resetRegister
  initHl := some Config.resetRegister
  initSp := some Config.resetRegister
  launchNo := 0

end Sys2Proof.Machine
end

