-- ==== Sys2Proof/Machine/HostInterface.lean ====
section
/-! DEFINITION. What the caller can do to the CORE: Step it, and use the accessors between Steps (10_state.md R38,
20_memory.md R62, 70_reset_and_hazards.md R175). A script of events is a caller that serialises, as it must. The reads
are `readReg8`, `readReg16`, `readFlag`, `busRead` and `storeRead`. Several instances are a list of machines (R154). -/

namespace Sys2Proof.Machine

/-- One thing the caller does. -/
inductive HostEvent where
  /-- Call `Step()` (R90). -/
  | step
  /-- Set an 8-bit register (R24, R25, R31, R38). -/
  | setReg8 (r : Reg8) (v : Byte)
  /-- Set a 16-bit register (R26, R31, R38). -/
  | setReg16 (r : Reg16) (v : Word)
  /-- Set a flag boolean (R33, R38). -/
  | setFlag (f : Flag) (b : Bool)
  /-- `SyncToRegister()` (R32). -/
  | syncToRegister
  /-- `SyncFromRegister()` (R32). -/
  | syncFromRegister
  /-- Write a byte on the Memory Bus, at a 16-bit address (R53, R62). -/
  | busWrite (addr : Word) (v : Byte)
  /-- Write a byte of the store, at any address, 0x10000 and above included: only the host reaches those (R51, D20). -/
  | storeWrite (addr : Nat) (v : Byte)
  deriving DecidableEq, Repr

/-- What the caller is told. -/
inductive HostReport where
  | ok
  | fault (error : Fault)
  /-- A `storeWrite` beyond the store: nothing is stored (log 18). -/
  | outsideStore (addr : Nat)
  | refused (reason : Refusal)
  deriving DecidableEq, Repr

/-- The state an event leaves, and what the caller is told. -/
structure HostResult where
  state : State
  report : HostReport
  deriving DecidableEq, Repr

/-- A Step's outcome as the caller is told it (R90). -/
def reportOf : StepOutcome → HostReport
  | .ok => .ok
  | .fault e => .fault e
  | .refused r => .refused r

/-- A host write on the Memory Bus (R53, R62). Out of range nothing is stored and the error is reported; RUN does not
change, because a host write is not a Step (R35, R38, log 17). -/
def busWrite (s : State) (addr : Word) (v : Byte) : HostResult :=
  match memWrite s.mem addr v with
  | .ok m => { state := s.setMem m, report := .ok }
  | .error e => { state := s, report := .fault e }

/-- A host write of any byte of the store (R51, R62); beyond the store it stores nothing (R54, log 18). -/
def storeWrite (s : State) (addr : Nat) (v : Byte) : HostResult :=
  if addr < s.mem.size then { state := s.setMem (s.mem.setByte addr v), report := .ok }
  else { state := s, report := .outsideStore addr }

/-- A host read on the Memory Bus (R52, R62): it changes no state (R55). -/
def busRead (s : State) (addr : Word) : Except Fault Byte := memRead s.mem addr .read

/-- A host read of any byte of the store (R51, log 18). -/
def storeRead (s : State) (addr : Nat) : Option Byte :=
  if addr < s.mem.size then some (s.mem.byteAt addr) else none

/-- What one event does. Setters are total and change no RUN, on a faulted instance too (R27, R38, R97). -/
def applyEvent (s : State) : HostEvent → HostResult
  | .step => { state := (stepFull s).state, report := reportOf (stepFull s).outcome }
  | .setReg8 r v => { state := writeReg8 r v s, report := .ok }
  | .setReg16 r v => { state := writeReg16 r v s, report := .ok }
  | .setFlag f b => { state := writeFlag f b s, report := .ok }
  | .syncToRegister => { state := syncToRegister s, report := .ok }
  | .syncFromRegister => { state := syncFromRegister s, report := .ok }
  | .busWrite addr v => busWrite s addr v
  | .storeWrite addr v => storeWrite s addr v

/-- A script: the caller's events one after another, none overlapping a Step (R175). -/
def runEvents (s : State) : List HostEvent → State
  | [] => s
  | e :: rest => runEvents (applyEvent s e).state rest

/-- One Step of instance number `k` among several instances, each with its own registers, RUN and store (R63, R154). -/
def stepInstance (instances : List State) (k : Nat) : List State :=
  instances.modify k (fun s => (stepFull s).state)

end Sys2Proof.Machine
end

