-- ==== Sys2Proof/Safety.lean ====
section
/-! DEFINITION. What a good state and a safe run are, in the terms the statements use. -/

namespace Sys2Proof.Machine

/-- A run status a CORE with a conforming store can have: Running, or Faulted by one of the 254 unimplemented opcodes
(R35, R51, R72, R141). -/
def RunStatus.legal : RunStatus → Bool
  | .running => true
  | .faulted (.unimplementedOpcode op _) => op != 0x00#8 && op != 0x80#8
  | .faulted (.outOfRangeAddress _ _) => false

/-- The machine's invariant: a store of at least 0x10000 bytes (R11) in canonical form, AF bits 3:0 zero in the cell
(R31), and a legal run status. -/
abbrev State.Inv (s : State) : Prop :=
  Config.minMemSize ≤ s.mem.size ∧ s.mem.wf ∧ s.af &&& 0x000F#16 = 0#16 ∧ s.run.legal = true

/-- The byte the store holds `k` bytes after PC, PC wrapping at 0xFFFF (R92, R98). -/
def byteAhead (s : State) (k : Nat) : Byte := s.mem.byteAt (s.pc + BitVec.ofNat 16 k).toNat

/-- How many of the `n` bytes from PC on are `ADD A, B` (0x80, R71). -/
def addsAhead (s : State) : Nat → Nat
  | 0 => 0
  | n + 1 => addsAhead s n + if byteAhead s n = 0x80#8 then 1 else 0

end Sys2Proof.Machine
end

