-- ==== Sys2Proof/Certificates/Slice0/Obligations.lean ====
section
/-! DEFINITION. The statements for the provers, each from a rule of spec/. A docstring names the rule; where a clause
rests on a decision the spec marks as its own (92_eei_decisions.md) or on a log entry, it says which. -/

open Sys2Proof Sys2Proof.Machine

/-! ### Encoding -/

/-- The two opcode bytes of R71, written bit by bit, decode to their instructions; bytes one bit away, and 0xCB (R74), do
not. The opcode table's word of a row decodes to the row's instruction. The spellings are R77's (D2, log 25). -/
def Obligations.DecodesSpecOpcodeBytes : Prop :=
  decode 0b00000000#8 = .instr .nop ∧ decode 0b10000000#8 = .instr .addAB ∧
    decode 0b10000001#8 = .unimplemented 0b10000001#8 ∧ decode 0b00000001#8 = .unimplemented 0b00000001#8 ∧
    decode 0xCB#8 = .unimplemented 0xCB#8 ∧ decodeTableWord 8 0x00 = some .nop ∧ decodeTableWord 8 0x80 = some .addAB ∧
    listing 0x00#8 = "NOP" ∧ listing 0x80#8 = "ADD A, B" ∧ listing 0xCB#8 = "DB 0xCB"

/-- R71: exactly two instructions, each selected by all 8 bits of the opcode (mask 0xFF). -/
def Obligations.OpcodeSetIsExactlyNopAndAddAB : Prop :=
  (∀ (op : Byte) (i : Instr),
      decode op = .instr i ↔ (op = 0x00#8 ∧ i = .nop) ∨ (op = 0x80#8 ∧ i = .addAB)) ∧
    (∀ row ∈ opcodeTable, row.mask = 0xFF#8) ∧ opcodeTable.length = 2

/-- Decoding and encoding agree in both directions, and no byte but the encodings is an instruction (R70, R71, R75). -/
def Obligations.DecodeAndEncodeAgree : Prop :=
  (∀ i : Instr, decode (encode i) = .instr i) ∧
    (∀ (op : Byte) (i : Instr), decode op = .instr i → encode i = op) ∧
    ∀ op : Byte, (∀ i : Instr, encode i ≠ op) → decode op = .unimplemented op

/-- The opcode map's counts (R72, R76): 254 of the 256 byte values are unimplemented. -/
def Obligations.OpcodeMapHas254UnimplementedValues : Prop :=
  ((List.range 256).filter
      (fun k => decide (decode (BitVec.ofNat 8 k) = .unimplemented (BitVec.ofNat 8 k)))).length = 254

/-! ### The Step -/

/-- A Step that fetches the byte of an instruction is that instruction's meaning on the state with PC one further, mod
2^16 (R91 to R94; the wrap is D3, log 10). -/
def Obligations.StepRunsDecodedInstruction : Prop :=
  ∀ (s : State) (op : Byte) (i : Instr), s.run = .running → memRead s.mem s.pc .fetch = .ok op →
    decode op = .instr i → step s = exec i (s.setPc (s.pc + 1#16))

/-- A byte placed where the next Step fetches is what that Step runs; this is how a program is loaded (log 5, the model's
own harness; R170). PC one further is mod 2^16, and its wrap at 0xFFFF is D3 (log 10). -/
def Obligations.PlacedWordIsRunNext : Prop :=
  ∀ (s : State) (w : Nat), Config.minMemSize ≤ s.mem.size → s.mem.wf →
    match decodeTableWord 8 w with
    | some i => step (s.withFetchWord 8 w) = exec i ((s.withFetchWord 8 w).setPc (s.pc + 1#16))
    | none => step (s.withFetchWord 8 w) = .fault (.unimplementedOpcode (BitVec.ofNat 8 w) s.pc)

/-- The meaning of NOP: it completes in every state and changes nothing (R110). -/
def Obligations.NopCompletesAndChangesNothing : Prop :=
  ∀ s : State, exec .nop s = .next s

/-- The meaning of ADD A, B: it completes in every state; A is the sum mod 256, the flags are those of the additive
policy, F is those flags with bits 3:0 zero; everything else is as before (R124, R121). -/
def Obligations.AddABCompletesWithSumAndFlags : Prop :=
  ∀ s : State, ∃ t : State, exec .addAB s = .next t ∧
    (readReg8 .a t).toNat = ((readReg8 .a s).toNat + (readReg8 .b s).toNat) % 256 ∧
    readFlag .z t = decide (((readReg8 .a s).toNat + (readReg8 .b s).toNat) % 256 = 0) ∧
    readFlag .n t = false ∧
    readFlag .h t = decide (0x0F < (readReg8 .a s).toNat % 16 + (readReg8 .b s).toNat % 16) ∧
    readFlag .c t = decide (0xFF < (readReg8 .a s).toNat + (readReg8 .b s).toNat) ∧
    readReg8 .f t = packFlags (readFlags t) ∧ t.af &&& 0x000F#16 = 0#16 ∧
    t.bc = s.bc ∧ t.de = s.de ∧ t.hl = s.hl ∧ t.pc = s.pc ∧ t.sp = s.sp ∧ t.run = s.run ∧
    t.mem.size = s.mem.size ∧ ∀ a : Nat, t.mem.byteAt a = s.mem.byteAt a

/-- A Step on the byte 0x00 completes, moves PC by one (0xFFFF to 0x0000: D3, log 10), and changes nothing else (R110,
R92). -/
def Obligations.StepOnNopByteMovesOnlyPc : Prop :=
  ∀ s : State, s.run = .running → s.pc.toNat < s.mem.size → s.mem.byteAt s.pc.toNat = 0x00#8 →
    ∃ t : State, step s = .next t ∧ t.pc.toNat = (s.pc.toNat + 1) % 65536 ∧
      t.af = s.af ∧ t.bc = s.bc ∧ t.de = s.de ∧ t.hl = s.hl ∧ t.sp = s.sp ∧ t.run = s.run ∧
      t.mem.size = s.mem.size ∧ ∀ a : Nat, t.mem.byteAt a = s.mem.byteAt a

/-- A Step on the byte 0x80 completes: PC moves by one (0xFFFF to 0x0000: D3, log 10), A and the four flags are those of
the additive policy, all else is as before (R124, R92, test property E2). -/
def Obligations.StepOnAddByteAddsBToA : Prop :=
  ∀ s : State, s.run = .running → s.pc.toNat < s.mem.size → s.mem.byteAt s.pc.toNat = 0x80#8 →
    ∃ t : State, step s = .next t ∧ t.pc.toNat = (s.pc.toNat + 1) % 65536 ∧
      (readReg8 .a t).toNat = ((readReg8 .a s).toNat + (readReg8 .b s).toNat) % 256 ∧
      readFlag .z t = decide (readReg8 .a t = 0#8) ∧ readFlag .n t = false ∧
      readFlag .h t = decide (0x0F < (readReg8 .a s).toNat % 16 + (readReg8 .b s).toNat % 16) ∧
      readFlag .c t = decide (0xFF < (readReg8 .a s).toNat + (readReg8 .b s).toNat) ∧
      t.af &&& 0x000F#16 = 0#16 ∧
      t.bc = s.bc ∧ t.de = s.de ∧ t.hl = s.hl ∧ t.sp = s.sp ∧ t.run = s.run ∧
      t.mem.size = s.mem.size ∧ ∀ a : Nat, t.mem.byteAt a = s.mem.byteAt a

/-- Whatever a Step that completes runs: PC moves by exactly one, BC, DE, HL, SP, RUN and every byte of memory are as
before, and AF changes only on the byte 0x80 (R36, R28, R29, R94; the PC wrap is D3, log 10). -/
def Obligations.CompletedStepFrame : Prop :=
  ∀ s t : State, step s = .next t →
    t.pc = s.pc + 1#16 ∧ t.bc = s.bc ∧ t.de = s.de ∧ t.hl = s.hl ∧ t.sp = s.sp ∧ t.run = s.run ∧
      t.mem.size = s.mem.size ∧ (∀ a : Nat, t.mem.byteAt a = s.mem.byteAt a) ∧
      (s.mem.byteAt s.pc.toNat ≠ 0x80#8 → t.af = s.af)

/-- No Step refuses: every byte is an instruction with a meaning or a fault the spec names (R72, R90). -/
def Obligations.StepNeverRefuses : Prop :=
  ∀ (s : State) (r : Refusal), step s ≠ .refused r

/-- What a Step does and whether it faults depend on PC, the store, RUN, A and B alone: C, DE, HL, SP and the old flags
do not matter (R36, R93, R101, R121). -/
def Obligations.StepReadsOnlyPcStoreRunAAndB : Prop :=
  ∀ s t : State, s.pc = t.pc → s.mem = t.mem → s.run = t.run → readReg8 .a s = readReg8 .a t →
    readReg8 .b s = readReg8 .b t →
    (∀ e : Fault, step s = .fault e ↔ step t = .fault e) ∧
      ∀ s' : State, step s = .next s' → ∃ t' : State, step t = .next t' ∧
        t'.pc = s'.pc ∧ t'.mem = s'.mem ∧ t'.run = s'.run ∧ readReg8 .a t' = readReg8 .a s' ∧
        (s.mem.byteAt s.pc.toNat = 0x80#8 → readReg8 .f t' = readReg8 .f s')

/-! ### Faults -/

/-- R141: fetching any of the 254 other bytes raises UnimplementedOpcode with that byte and the PC before the increment.
What the Step leaves is `FaultingStepIsAtomic`. -/
def Obligations.UnimplementedOpcodeFaultNamesByteAndAddress : Prop :=
  ∀ (s : State) (op : Byte), s.run = .running → memRead s.mem s.pc .fetch = .ok op → op ≠ 0x00#8 → op ≠ 0x80#8 →
    step s = .fault (.unimplementedOpcode op s.pc) ∧
      (stepFull s).outcome = .fault (.unimplementedOpcode op s.pc)

/-- A Step that faults leaves the state it began in, with PC at the fetch address, but for RUN, which records the error
(R96, R140, R146; PC and RUN are the spec's decisions D4 and D5, log 11 and log 12). -/
def Obligations.FaultingStepIsAtomic : Prop :=
  ∀ (s : State) (e : Fault), (stepFull s).outcome = .fault e →
    (stepFull s).state = s.setRun (.faulted e) ∧ (stepFull s).state.pc = s.pc

/-- A faulted instance stays faulted with the same record through every script of Steps and host writes, and every Step
in it changes nothing and returns that record (R97, R35, R38; D5, log 12; test vector HALT1). That a host write beyond the
store leaves RUN is the model's reading (log 17, log 18). -/
def Obligations.FaultedStatusOutlastsEveryScript : Prop :=
  ∀ (events : List HostEvent) (s : State) (e : Fault), s.run = .faulted e →
    (runEvents s events).run = .faulted e ∧
      stepFull (runEvents s events) = { state := runEvents s events, outcome := .fault e } ∧
      step (runEvents s events) = .fault e

/-- With a store too small to hold PC, the fetch raises OutOfRangeAddress and nothing but RUN changes (R91, R96, R142; the
record is D10, log 14; test vector OOR1). -/
def Obligations.FetchBeyondStoreFaults : Prop :=
  ∀ s : State, s.run = .running → s.mem.size ≤ s.pc.toNat →
    step s = .fault (.outOfRangeAddress s.pc .fetch) ∧
      (stepFull s).state = s.setRun (.faulted (.outOfRangeAddress s.pc .fetch))

/-- With a store of at least 0x10000 bytes no 16-bit address is out of range: every MemRead and MemWrite succeeds, and no
Step of a running instance raises OutOfRangeAddress (R51, R142; test vector OOR2). -/
def Obligations.ConformingStoreHasNoAddressFault : Prop :=
  ∀ s : State, Config.minMemSize ≤ s.mem.size →
    (∀ (a : Word) (k : AccessKind), memRead s.mem a k = .ok (s.mem.byteAt a.toNat)) ∧
      (∀ (a : Word) (v : Byte), ∃ m : Memory, memWrite s.mem a v = .ok m) ∧
      (s.run = .running → ∀ (a : Word) (k : AccessKind), step s ≠ .fault (.outOfRangeAddress a k))

/-- A running instance's Step raises at most one of the two faults, the fetch's OutOfRangeAddress before any decoding
(R143, R145; the order is D18). -/
def Obligations.RunningStepFaultsOnlyInTwoWays : Prop :=
  ∀ (s : State) (e : Fault), s.run = .running →
    (step s = .fault e ↔
      (s.mem.size ≤ s.pc.toNat ∧ e = .outOfRangeAddress s.pc .fetch) ∨
      (s.pc.toNat < s.mem.size ∧ s.mem.byteAt s.pc.toNat ≠ 0x00#8 ∧ s.mem.byteAt s.pc.toNat ≠ 0x80#8 ∧
        e = .unimplementedOpcode (s.mem.byteAt s.pc.toNat) s.pc))

/-! ### The flag ALU -/

/-- R121: the result and the four flags of ALU_ADD8 on all operands. It reads no flag: it has none to read. -/
def Obligations.AluAdd8FollowsAdditivePolicy : Prop :=
  ∀ dst src : Byte,
    (aluAdd8 dst src).result.toNat = (dst.toNat + src.toNat) % 256 ∧
      (aluAdd8 dst src).flags.z = decide ((dst.toNat + src.toNat) % 256 = 0) ∧
      (aluAdd8 dst src).flags.n = false ∧
      (aluAdd8 dst src).flags.h = decide (0x0F < (dst &&& 0x0F#8).toNat + (src &&& 0x0F#8).toNat) ∧
      (aluAdd8 dst src).flags.c = decide (0xFF < dst.toNat + src.toNat)

/-- The glossary's carries (R16): C is bit 8 of the 9-bit sum and H is the carry out of the low 4 bits, bit 4 of the sum
of the low nibbles; the result is the sum's low 8 bits (R120). -/
def Obligations.AluAdd8CarriesAreSumBits : Prop :=
  ∀ dst src : Byte,
    (aluAdd8 dst src).result = (dst.setWidth 9 + src.setWidth 9).setWidth 8 ∧
      (aluAdd8 dst src).flags.c = (dst.setWidth 9 + src.setWidth 9).getLsbD 8 ∧
      (aluAdd8 dst src).flags.h = ((dst.setWidth 4).setWidth 5 + (src.setWidth 4).setWidth 5).getLsbD 4

/-- ALU_SUB8: the difference mod 256, N set, H and C the borrows out of bit 3 and bit 7, Z exactly on equal operands
(R123). Only N is the source's; the rest is the spec's reading D17 (log 15, PRESUMED). No opcode reaches it. -/
def Obligations.AluSub8FollowsSpecReading : Prop :=
  ∀ dst src : Byte,
    (aluSub8 dst src).result = dst - src ∧
      (aluSub8 dst src).flags.z = decide (dst = src) ∧
      (aluSub8 dst src).flags.n = true ∧
      (aluSub8 dst src).flags.h = decide (dst.toNat % 16 < src.toNat % 16) ∧
      (aluSub8 dst src).flags.c = decide (dst.toNat < src.toNat)

/-- The old flags never change what ADD A, B does: after any host write of a flag it gives the same outcome and the same
state (R121, R124; that a flag write acts on F at once is D7, log 9). -/
def Obligations.AddABIgnoresOldFlags : Prop :=
  ∀ (s : State) (f : Flag) (b : Bool), exec .addAB (writeFlag f b s) = exec .addAB s

/-! ### The register file -/

/-- R21 and R22: each 8-bit register is its half of its pair, bits 15:8 or bits 7:0. The AF cell has its bits 3:0 zero, as
every reachable state has (`EveryScriptKeepsInvariant`). -/
def Obligations.Reg8ReadsItsHalfOfThePair : Prop :=
  ∀ s : State, s.af &&& 0x000F#16 = 0#16 →
    readReg8 .a s = s.af.extractLsb' 8 8 ∧ readReg8 .f s = s.af.extractLsb' 0 8 ∧
      readReg8 .b s = s.bc.extractLsb' 8 8 ∧ readReg8 .c s = s.bc.extractLsb' 0 8 ∧
      readReg8 .d s = s.de.extractLsb' 8 8 ∧ readReg8 .e s = s.de.extractLsb' 0 8 ∧
      readReg8 .h s = s.hl.extractLsb' 8 8 ∧ readReg8 .l s = s.hl.extractLsb' 0 8

/-- R24: writing A, B, D or H replaces bits 15:8 of its pair and keeps bits 7:0, and reads back. -/
def Obligations.HighHalfWriteKeepsLowHalf : Prop :=
  ∀ (s : State) (v : Byte),
    ((writeReg8 .a v s).af.extractLsb' 8 8 = v ∧ (writeReg8 .a v s).af.extractLsb' 0 8 = s.af.extractLsb' 0 8) ∧
      ((writeReg8 .b v s).bc.extractLsb' 8 8 = v ∧ (writeReg8 .b v s).bc.extractLsb' 0 8 = s.bc.extractLsb' 0 8) ∧
      ((writeReg8 .d v s).de.extractLsb' 8 8 = v ∧ (writeReg8 .d v s).de.extractLsb' 0 8 = s.de.extractLsb' 0 8) ∧
      ((writeReg8 .h v s).hl.extractLsb' 8 8 = v ∧ (writeReg8 .h v s).hl.extractLsb' 0 8 = s.hl.extractLsb' 0 8) ∧
      readReg8 .f (writeReg8 .a v s) = readReg8 .f s

/-- R25: writing C, E or L replaces bits 7:0 of its pair and keeps bits 15:8. -/
def Obligations.LowHalfWriteKeepsHighHalf : Prop :=
  ∀ (s : State) (v : Byte),
    ((writeReg8 .c v s).bc.extractLsb' 0 8 = v ∧ (writeReg8 .c v s).bc.extractLsb' 8 8 = s.bc.extractLsb' 8 8) ∧
      ((writeReg8 .e v s).de.extractLsb' 0 8 = v ∧ (writeReg8 .e v s).de.extractLsb' 8 8 = s.de.extractLsb' 8 8) ∧
      ((writeReg8 .l v s).hl.extractLsb' 0 8 = v ∧ (writeReg8 .l v s).hl.extractLsb' 8 8 = s.hl.extractLsb' 8 8)

/-- Every 8-bit register reads back what is written, F without its bits 3:0 (R31, D6, log 8), and no other register, RUN
or memory changes (R22 to R25; test property E1). -/
def Obligations.Reg8WriteReadsBackAndSparesOthers : Prop :=
  ∀ (r : Reg8) (v : Byte) (s : State),
    readReg8 r (writeReg8 r v s) = (if r = .f then v &&& 0xF0#8 else v) ∧
      (∀ r' : Reg8, r' ≠ r → readReg8 r' (writeReg8 r v s) = readReg8 r' s) ∧
      (writeReg8 r v s).pc = s.pc ∧ (writeReg8 r v s).sp = s.sp ∧ (writeReg8 r v s).run = s.run ∧
      (writeReg8 r v s).mem = s.mem

/-- R26: writing BC, DE or HL replaces the whole cell, and both halves read as the parts of the value. -/
def Obligations.PairWriteReplacesWholeCell : Prop :=
  ∀ (s : State) (v : Word),
    ((writeReg16 .bc v s).bc = v ∧ readReg8 .b (writeReg16 .bc v s) = v.extractLsb' 8 8 ∧
        readReg8 .c (writeReg16 .bc v s) = v.extractLsb' 0 8) ∧
      ((writeReg16 .de v s).de = v ∧ readReg8 .d (writeReg16 .de v s) = v.extractLsb' 8 8 ∧
        readReg8 .e (writeReg16 .de v s) = v.extractLsb' 0 8) ∧
      ((writeReg16 .hl v s).hl = v ∧ readReg8 .h (writeReg16 .hl v s) = v.extractLsb' 8 8 ∧
        readReg8 .l (writeReg16 .hl v s) = v.extractLsb' 0 8)

/-- Every 16-bit register reads back what is written, AF without its bits 3:0 (R31, D6, log 8); the other five cells, RUN
and memory are as before (R20, R26, R38). -/
def Obligations.Reg16WriteReadsBackAndSparesOthers : Prop :=
  ∀ (r : Reg16) (v : Word) (s : State),
    readReg16 r (writeReg16 r v s) = (if r = .af then v &&& 0xFFF0#16 else v) ∧
      (∀ r' : Reg16, r' ≠ r → readReg16 r' (writeReg16 r v s) = readReg16 r' s) ∧
      (writeReg16 r v s).run = s.run ∧ (writeReg16 r v s).mem = s.mem

/-- F bits 3:0 read as zero in every state, and a write of F or AF stores zero there and keeps the rest (R31; that a
written value is discarded is D6, log 8). -/
def Obligations.FlagsByteLowNibbleIsHardwiredZero : Prop :=
  ∀ (s : State) (v : Byte) (w : Word),
    readReg8 .f s &&& 0x0F#8 = 0#8 ∧ readReg16 .af s &&& 0x000F#16 = 0#16 ∧
      (writeReg8 .f v s).af.extractLsb' 0 8 = v &&& 0xF0#8 ∧
      (writeReg8 .f v s).af.extractLsb' 8 8 = s.af.extractLsb' 8 8 ∧
      (writeReg16 .af w s).af = w &&& 0xFFF0#16

/-- Which bit of F each flag is; F's other four bits are zero (R30). That the same bits of the AF cell are the flags' one
storage is the spec's own inference from R21 and D7 (log 9); that F's bits 3:0 are hard-wired is log 8. -/
def Obligations.FlagsAreBitsSevenToFourOfF : Prop :=
  ∀ s : State,
    (readFlag .z s = (readReg8 .f s).getLsbD 7 ∧ readFlag .n s = (readReg8 .f s).getLsbD 6 ∧
        readFlag .h s = (readReg8 .f s).getLsbD 5 ∧ readFlag .c s = (readReg8 .f s).getLsbD 4) ∧
      (readFlag .z s = s.af.getLsbD 7 ∧ readFlag .n s = s.af.getLsbD 6 ∧
        readFlag .h s = s.af.getLsbD 5 ∧ readFlag .c s = s.af.getLsbD 4) ∧
      ∀ i < 4, (readReg8 .f s).getLsbD i = false

/-- A host write of one flag writes its bit of F, and every other bit of AF, every other register, RUN and memory stay
(R33; that it acts on F at once is D7, log 9). -/
def Obligations.FlagWriteChangesOneBitOfAf : Prop :=
  ∀ (f : Flag) (b : Bool) (s : State),
    (∀ i < 16, (writeFlag f b s).af.getLsbD i = if i = flagBit f then b else s.af.getLsbD i) ∧
      readFlag f (writeFlag f b s) = b ∧
      ∃ v : Word, writeFlag f b s = s.setAf v

/-- Setting the four flags and synchronising both ways gives them back, with F their packing and its bits 3:0 zero (R32,
R34, test property E3; one storage is D7, log 9). -/
def Obligations.FlagRoundTripThroughBothSyncs : Prop :=
  ∀ (s : State) (z n h c : Bool), s.af &&& 0x000F#16 = 0#16 →
    let t := writeFlag .c c (writeFlag .h h (writeFlag .n n (writeFlag .z z s)))
    readFlags (syncFromRegister (syncToRegister t)) = { z := z, n := n, h := h, c := c } ∧
      readReg8 .f t = (boolBit z <<< 7) ||| (boolBit n <<< 6) ||| (boolBit h <<< 5) ||| (boolBit c <<< 4) ∧
      t.af.extractLsb' 0 8 &&& 0x0F#8 = 0#8 ∧ readReg8 .a t = readReg8 .a s

/-- With one storage for the flags both sync operations change nothing, where the AF cell has its bits 3:0 zero (R32; D7,
log 9; `StepKeepsInvariant` and `EveryScriptKeepsInvariant` say it always has). -/
def Obligations.SyncOperationsAreIdentities : Prop :=
  ∀ s : State, s.af &&& 0x000F#16 = 0#16 → syncToRegister s = s ∧ syncFromRegister s = s

/-- After every Step that ends Ok the low byte of the AF cell is the packing of the four flags, bits 3:0 zero (R34;
one storage for the flags is D7, log 9). -/
def Obligations.FlagsBytePackedAfterEveryOkStep : Prop :=
  ∀ s : State, s.af &&& 0x000F#16 = 0#16 → (stepFull s).outcome = .ok →
    (stepFull s).state.af.extractLsb' 0 8 =
        (boolBit (readFlag .z (stepFull s).state) <<< 7) ||| (boolBit (readFlag .n (stepFull s).state) <<< 6) |||
          (boolBit (readFlag .h (stepFull s).state) <<< 5) ||| (boolBit (readFlag .c (stepFull s).state) <<< 4) ∧
      (stepFull s).state.af.extractLsb' 0 8 &&& 0x0F#8 = 0#8

/-! ### The Memory Bus -/

/-- MemRead gives the byte, or raises OutOfRangeAddress with the address and the kind (R52; the record is D10, log 14). -/
def Obligations.MemReadIsBoundsChecked : Prop :=
  ∀ (m : Memory) (addr : Word) (kind : AccessKind),
    (addr.toNat < m.size → memRead m addr kind = .ok (m.byteAt addr.toNat)) ∧
      (m.size ≤ addr.toNat → memRead m addr kind = .error (.outOfRangeAddress addr kind))

/-- MemWrite stores the byte and changes no other, or stores nothing and raises OutOfRangeAddress (R53, R54; the record is
D10, log 14). The store is in its canonical form, as every reachable one is (`EveryScriptKeepsInvariant`). -/
def Obligations.MemWriteStoresExactlyOneByte : Prop :=
  ∀ (m : Memory) (addr : Word) (v : Byte), m.wf →
    (addr.toNat < m.size → ∃ m' : Memory, memWrite m addr v = .ok m' ∧ m'.size = m.size ∧
        m'.byteAt addr.toNat = v ∧ ∀ a : Nat, a ≠ addr.toNat → m'.byteAt a = m.byteAt a) ∧
      (m.size ≤ addr.toNat → memWrite m addr v = .error (.outOfRangeAddress addr .write))

/-- A byte the host writes at PC between Steps is what the very next Step fetches and runs (R62, R65, R174; host
writes are D14, the PC wrap is D3, log 10). -/
def Obligations.HostWriteIsSeenByNextFetch : Prop :=
  ∀ (s : State) (v : Byte), s.Inv → s.run = .running →
    let t := (applyEvent s (.busWrite s.pc v)).state
    t.pc = s.pc ∧ memRead t.mem t.pc .fetch = .ok v ∧
      (∀ i : Instr, decode v = .instr i → step t = exec i (t.setPc (t.pc + 1#16))) ∧
      (decode v = .unimplemented v → step t = .fault (.unimplementedOpcode v t.pc))

/-- Bytes at 0x10000 and above never change what a Step does: two stores of at least 0x10000 bytes that agree below it
give the same fault, or the same next state but for the store (R51, D20). -/
def Obligations.BytesBeyond64KAreUnreachable : Prop :=
  ∀ (s : State) (m : Memory), Config.minMemSize ≤ s.mem.size → Config.minMemSize ≤ m.size →
    (∀ a < 0x10000, m.byteAt a = s.mem.byteAt a) →
    (∀ e : Fault, step s = .fault e ↔ step (s.setMem m) = .fault e) ∧
      ∀ t : State, step s = .next t → step (s.setMem m) = .next (t.setMem m)

/-! ### Construction, the host and the invariant -/

/-- Construction sets PC to INIT_PC, each supplied register to its value (AF without bits 3:0: D6, log 8), RUN to Running
and the store to the caller's, whatever the registers left out hold (R170, R171). -/
def Obligations.ConstructionSetsWhatCallerSupplies : Prop :=
  ∀ l : Launch,
    (construct l).pc = l.initPc ∧ (construct l).run = .running ∧ (construct l).mem = l.mem ∧
      (∀ v : Word, l.initAf = some v → (construct l).af = v &&& 0xFFF0#16) ∧
      (∀ v : Word, l.initBc = some v → (construct l).bc = v) ∧
      (∀ v : Word, l.initDe = some v → (construct l).de = v) ∧
      (∀ v : Word, l.initHl = some v → (construct l).hl = v) ∧
      (∀ v : Word, l.initSp = some v → (construct l).sp = v)

/-- A construction with a conforming store meets the invariant, for every value of the free registers (R11, R31, R40,
R170). -/
def Obligations.ConstructionMeetsInvariant : Prop :=
  ∀ l : Launch, l.wellFormed → (construct l).Inv

/-- State.reset is the construction by a caller that supplies the smallest store with nothing listed, INIT_PC 0x0000 and
zero for every register: the model's choice (log 1 to 4). -/
def Obligations.ResetIsAConstruction : Prop :=
  construct resetLaunch = State.reset ∧ State.reset.run = .running

/-- The state after reset meets the invariant. Its registers, PC and store are the model's choice (log 1 to 4). -/
def Obligations.ResetMeetsInvariant : Prop :=
  State.reset.Inv

/-- Every Step that completes keeps the invariant: a conforming store in canonical form, AF bits 3:0 zero, a legal run
status (R11, R31, R34, R50; RUN is D5, log 12; the canonical form is the model's, log 4). -/
def Obligations.StepKeepsInvariant : Prop :=
  ∀ s t : State, s.Inv → step s = .next t → t.Inv

/-- Every script of Steps, faulting ones included, and host writes keeps the invariant: no accessor and no fault can break
it (R31, R35, R38, R50, R96; D5 to D7 and D14, log 8, log 9, log 12; a write beyond the store is the model's reading,
log 17 and log 18). -/
def Obligations.EveryScriptKeepsInvariant : Prop :=
  ∀ (events : List HostEvent) (s : State), s.Inv → (runEvents s events).Inv

/-- A host write is not an instruction: no event but a Step changes RUN, and the register and flag setters report no error
and change no memory (R27, R38). That a bus write out of range leaves RUN is the model's reading (log 17), and that a
store write beyond the store does is its choice (log 18): the spec says neither. -/
def Obligations.HostWritesKeepRun : Prop :=
  (∀ (s : State) (ev : HostEvent), ev ≠ .step → (applyEvent s ev).state.run = s.run) ∧
    (∀ (s : State) (r : Reg8) (v : Byte),
      (applyEvent s (.setReg8 r v)).report = .ok ∧ (applyEvent s (.setReg8 r v)).state.mem = s.mem) ∧
    (∀ (s : State) (r : Reg16) (v : Word),
      (applyEvent s (.setReg16 r v)).report = .ok ∧ (applyEvent s (.setReg16 r v)).state.mem = s.mem) ∧
    ∀ (s : State) (f : Flag) (b : Bool),
      (applyEvent s (.setFlag f b)).report = .ok ∧ (applyEvent s (.setFlag f b)).state.mem = s.mem

/-- A host write beyond the store stores nothing, never wraps, and is reported (R53, R54; the report and that RUN stays
are the model's reading, log 17 and log 18). -/
def Obligations.HostWriteBeyondStoreChangesNothing : Prop :=
  (∀ (s : State) (addr : Word) (v : Byte), s.mem.size ≤ addr.toNat →
      applyEvent s (.busWrite addr v) = { state := s, report := .fault (.outOfRangeAddress addr .write) }) ∧
    ∀ (s : State) (addr : Nat) (v : Byte), s.mem.size ≤ addr →
      applyEvent s (.storeWrite addr v) = { state := s, report := .outsideStore addr }

/-- Stepping one of several instances leaves every other as it was (R63, R154; the list is log 22). -/
def Obligations.InstancesShareNoState : Prop :=
  ∀ (instances : List State) (k j : Nat),
    (stepInstance instances k)[j]? =
      if j = k then instances[j]?.map (fun s => (stepFull s).state) else instances[j]?

/-! ### Runs -/

/-- Control flow is strictly sequential: after n completed Steps PC is n further mod 2^16, and BC, DE, HL, SP, RUN and
memory are as they were (R98, R29, R36; the PC wrap is D3, log 10). -/
def Obligations.RunIsStrictlySequential : Prop :=
  ∀ (n : Nat) (s t : State), Sys2Proof.core.run n s = .next t →
    t.pc = s.pc + BitVec.ofNat 16 n ∧ t.bc = s.bc ∧ t.de = s.de ∧ t.hl = s.hl ∧ t.sp = s.sp ∧ t.run = s.run ∧
      t.mem = s.mem

/-- After n completed Steps A is its old value plus B once for every 0x80 among the n bytes from PC on, mod 256 (R98, R124,
R120; the PC wrap is D3, log 10). -/
def Obligations.RunAddsBOncePerAddByte : Prop :=
  ∀ (n : Nat) (s t : State), Sys2Proof.core.run n s = .next t →
    (readReg8 .a t).toNat = ((readReg8 .a s).toNat + addsAhead s n * (readReg8 .b s).toNat) % 256

/-- A running instance with a conforming store completes n Steps exactly when the n bytes from PC on, wrapping at 0xFFFF,
are all implemented opcodes (R71, R72, R98, R102; the PC wrap is D3, log 10). -/
def Obligations.RunCompletesExactlyOnImplementedBytes : Prop :=
  ∀ (n : Nat) (s : State), s.run = .running → Config.minMemSize ≤ s.mem.size →
    ((∃ t : State, Sys2Proof.core.run n s = .next t) ↔
      ∀ k < n, byteAhead s k = 0x00#8 ∨ byteAhead s k = 0x80#8)

/-- A running instance with a conforming store ends within n Steps in a fault exactly at the first unimplemented byte from
PC on, and the fault names that byte and its address (R102, R141, R51, R98; the PC wrap is D3, log 10). -/
def Obligations.RunFaultsAtFirstUnimplementedByte : Prop :=
  ∀ (n : Nat) (s : State) (e : Fault), s.run = .running → Config.minMemSize ≤ s.mem.size →
    (Sys2Proof.core.run n s = .fault e ↔
      ∃ k < n, (∀ j < k, byteAhead s j = 0x00#8 ∨ byteAhead s j = 0x80#8) ∧
        byteAhead s k ≠ 0x00#8 ∧ byteAhead s k ≠ 0x80#8 ∧
        e = .unimplementedOpcode (byteAhead s k) (s.pc + BitVec.ofNat 16 k))
end

