-- ==== Sys2Proof/Laws/State.lean ====
section
/-! SUPPORT. What each update of State leaves in each field: one lemma per field per update, true by rfl. -/

namespace Sys2Proof.Machine

variable (s : State)

@[simp] theorem State.setAf_af (v : Word) : (s.setAf v).af = v := rfl
@[simp] theorem State.setAf_bc (v : Word) : (s.setAf v).bc = s.bc := rfl
@[simp] theorem State.setAf_de (v : Word) : (s.setAf v).de = s.de := rfl
@[simp] theorem State.setAf_hl (v : Word) : (s.setAf v).hl = s.hl := rfl
@[simp] theorem State.setAf_pc (v : Word) : (s.setAf v).pc = s.pc := rfl
@[simp] theorem State.setAf_sp (v : Word) : (s.setAf v).sp = s.sp := rfl
@[simp] theorem State.setAf_run (v : Word) : (s.setAf v).run = s.run := rfl
@[simp] theorem State.setAf_mem (v : Word) : (s.setAf v).mem = s.mem := rfl

@[simp] theorem State.setBc_af (v : Word) : (s.setBc v).af = s.af := rfl
@[simp] theorem State.setBc_bc (v : Word) : (s.setBc v).bc = v := rfl
@[simp] theorem State.setBc_de (v : Word) : (s.setBc v).de = s.de := rfl
@[simp] theorem State.setBc_hl (v : Word) : (s.setBc v).hl = s.hl := rfl
@[simp] theorem State.setBc_pc (v : Word) : (s.setBc v).pc = s.pc := rfl
@[simp] theorem State.setBc_sp (v : Word) : (s.setBc v).sp = s.sp := rfl
@[simp] theorem State.setBc_run (v : Word) : (s.setBc v).run = s.run := rfl
@[simp] theorem State.setBc_mem (v : Word) : (s.setBc v).mem = s.mem := rfl

@[simp] theorem State.setDe_af (v : Word) : (s.setDe v).af = s.af := rfl
@[simp] theorem State.setDe_bc (v : Word) : (s.setDe v).bc = s.bc := rfl
@[simp] theorem State.setDe_de (v : Word) : (s.setDe v).de = v := rfl
@[simp] theorem State.setDe_hl (v : Word) : (s.setDe v).hl = s.hl := rfl
@[simp] theorem State.setDe_pc (v : Word) : (s.setDe v).pc = s.pc := rfl
@[simp] theorem State.setDe_sp (v : Word) : (s.setDe v).sp = s.sp := rfl
@[simp] theorem State.setDe_run (v : Word) : (s.setDe v).run = s.run := rfl
@[simp] theorem State.setDe_mem (v : Word) : (s.setDe v).mem = s.mem := rfl

@[simp] theorem State.setHl_af (v : Word) : (s.setHl v).af = s.af := rfl
@[simp] theorem State.setHl_bc (v : Word) : (s.setHl v).bc = s.bc := rfl
@[simp] theorem State.setHl_de (v : Word) : (s.setHl v).de = s.de := rfl
@[simp] theorem State.setHl_hl (v : Word) : (s.setHl v).hl = v := rfl
@[simp] theorem State.setHl_pc (v : Word) : (s.setHl v).pc = s.pc := rfl
@[simp] theorem State.setHl_sp (v : Word) : (s.setHl v).sp = s.sp := rfl
@[simp] theorem State.setHl_run (v : Word) : (s.setHl v).run = s.run := rfl
@[simp] theorem State.setHl_mem (v : Word) : (s.setHl v).mem = s.mem := rfl

@[simp] theorem State.setPc_af (v : Word) : (s.setPc v).af = s.af := rfl
@[simp] theorem State.setPc_bc (v : Word) : (s.setPc v).bc = s.bc := rfl
@[simp] theorem State.setPc_de (v : Word) : (s.setPc v).de = s.de := rfl
@[simp] theorem State.setPc_hl (v : Word) : (s.setPc v).hl = s.hl := rfl
@[simp] theorem State.setPc_pc (v : Word) : (s.setPc v).pc = v := rfl
@[simp] theorem State.setPc_sp (v : Word) : (s.setPc v).sp = s.sp := rfl
@[simp] theorem State.setPc_run (v : Word) : (s.setPc v).run = s.run := rfl
@[simp] theorem State.setPc_mem (v : Word) : (s.setPc v).mem = s.mem := rfl

@[simp] theorem State.setSp_af (v : Word) : (s.setSp v).af = s.af := rfl
@[simp] theorem State.setSp_bc (v : Word) : (s.setSp v).bc = s.bc := rfl
@[simp] theorem State.setSp_de (v : Word) : (s.setSp v).de = s.de := rfl
@[simp] theorem State.setSp_hl (v : Word) : (s.setSp v).hl = s.hl := rfl
@[simp] theorem State.setSp_pc (v : Word) : (s.setSp v).pc = s.pc := rfl
@[simp] theorem State.setSp_sp (v : Word) : (s.setSp v).sp = v := rfl
@[simp] theorem State.setSp_run (v : Word) : (s.setSp v).run = s.run := rfl
@[simp] theorem State.setSp_mem (v : Word) : (s.setSp v).mem = s.mem := rfl

@[simp] theorem State.setRun_af (v : RunStatus) : (s.setRun v).af = s.af := rfl
@[simp] theorem State.setRun_bc (v : RunStatus) : (s.setRun v).bc = s.bc := rfl
@[simp] theorem State.setRun_de (v : RunStatus) : (s.setRun v).de = s.de := rfl
@[simp] theorem State.setRun_hl (v : RunStatus) : (s.setRun v).hl = s.hl := rfl
@[simp] theorem State.setRun_pc (v : RunStatus) : (s.setRun v).pc = s.pc := rfl
@[simp] theorem State.setRun_sp (v : RunStatus) : (s.setRun v).sp = s.sp := rfl
@[simp] theorem State.setRun_run (v : RunStatus) : (s.setRun v).run = v := rfl
@[simp] theorem State.setRun_mem (v : RunStatus) : (s.setRun v).mem = s.mem := rfl

@[simp] theorem State.setMem_af (v : Memory) : (s.setMem v).af = s.af := rfl
@[simp] theorem State.setMem_bc (v : Memory) : (s.setMem v).bc = s.bc := rfl
@[simp] theorem State.setMem_de (v : Memory) : (s.setMem v).de = s.de := rfl
@[simp] theorem State.setMem_hl (v : Memory) : (s.setMem v).hl = s.hl := rfl
@[simp] theorem State.setMem_pc (v : Memory) : (s.setMem v).pc = s.pc := rfl
@[simp] theorem State.setMem_sp (v : Memory) : (s.setMem v).sp = s.sp := rfl
@[simp] theorem State.setMem_run (v : Memory) : (s.setMem v).run = s.run := rfl
@[simp] theorem State.setMem_mem (v : Memory) : (s.setMem v).mem = v := rfl

@[simp] theorem State.reset_run : State.reset.run = .running := rfl
@[simp] theorem State.reset_mem : State.reset.mem = { size := Config.resetMemSize, cells := [] } := rfl

end Sys2Proof.Machine
end

