-- ==== Sys2Proof/Laws/Registers.lean ====
section
/-! SUPPORT. What the halves of a pair are, and what writing one leaves of the other: the facts every register
statement rests on. -/

namespace Sys2Proof.Machine

theorem highByte_getLsbD (p : Word) (i : Nat) : (highByte p).getLsbD i = (decide (i < 8) && p.getLsbD (8 + i)) := by
  simp [highByte]

theorem lowByte_getLsbD (p : Word) (i : Nat) : (lowByte p).getLsbD i = (decide (i < 8) && p.getLsbD i) := by
  by_cases hi : i < 8
  · simp only [lowByte, BitVec.getLsbD_setWidth, BitVec.getLsbD_and, hi, decide_true, Bool.true_and]
    interval_cases i <;> simp
  · simp [lowByte, hi]

theorem withHighByte_getLsbD (p : Word) (v : Byte) {i : Nat} (hi : i < 16) :
    (withHighByte p v).getLsbD i = if i < 8 then p.getLsbD i else v.getLsbD (i - 8) := by
  simp only [withHighByte, BitVec.getLsbD_or, BitVec.getLsbD_shiftLeft, BitVec.getLsbD_setWidth, BitVec.getLsbD_and]
  interval_cases i <;> simp

theorem withLowByte_getLsbD (p : Word) (v : Byte) {i : Nat} (hi : i < 16) :
    (withLowByte p v).getLsbD i = if i < 8 then v.getLsbD i else p.getLsbD i := by
  simp only [withLowByte, BitVec.getLsbD_or, BitVec.getLsbD_setWidth, BitVec.getLsbD_and]
  interval_cases i <;> simp

theorem highByte_withHighByte (p : Word) (v : Byte) : highByte (withHighByte p v) = v := by
  refine BitVec.eq_of_getLsbD_eq fun i hi => ?_
  rw [highByte_getLsbD, withHighByte_getLsbD p v (by omega)]
  simp [hi]

theorem lowByte_withHighByte (p : Word) (v : Byte) : lowByte (withHighByte p v) = lowByte p := by
  refine BitVec.eq_of_getLsbD_eq fun i hi => ?_
  rw [lowByte_getLsbD, lowByte_getLsbD, withHighByte_getLsbD p v (by omega)]
  simp [hi]

theorem highByte_withLowByte (p : Word) (v : Byte) : highByte (withLowByte p v) = highByte p := by
  refine BitVec.eq_of_getLsbD_eq fun i hi => ?_
  rw [highByte_getLsbD, highByte_getLsbD, withLowByte_getLsbD p v (by omega)]
  simp

theorem lowByte_withLowByte (p : Word) (v : Byte) : lowByte (withLowByte p v) = v := by
  refine BitVec.eq_of_getLsbD_eq fun i hi => ?_
  rw [lowByte_getLsbD, withLowByte_getLsbD p v (by omega)]
  simp [hi]

/-- The hard-wired bits do not reach A. -/
theorem highByte_and_afMask (p : Word) : highByte (p &&& afMask) = highByte p := by
  refine BitVec.eq_of_getLsbD_eq fun i hi => ?_
  rw [highByte_getLsbD, highByte_getLsbD, BitVec.getLsbD_and]
  interval_cases i <;> simp [afMask]

/-- F is the low byte of the AF cell without its hard-wired bits. -/
theorem lowByte_and_afMask (p : Word) : lowByte (p &&& afMask) = lowByte p &&& flagsMask := by
  refine BitVec.eq_of_getLsbD_eq fun i hi => ?_
  rw [lowByte_getLsbD, BitVec.getLsbD_and, BitVec.getLsbD_and, lowByte_getLsbD]
  interval_cases i <;> simp [afMask, flagsMask]

/-- A pair is its two halves. -/
theorem pair_ext {p q : Word} (hh : highByte p = highByte q) (hl : lowByte p = lowByte q) : p = q := by
  refine BitVec.eq_of_getLsbD_eq fun i hi => ?_
  by_cases h : i < 8
  · have := congrArg (fun b => BitVec.getLsbD b i) hl
    simp only [lowByte_getLsbD, h, decide_true, Bool.true_and] at this
    exact this
  · have := congrArg (fun b => BitVec.getLsbD b (i - 8)) hh
    simp only [highByte_getLsbD, show i - 8 < 8 by omega, show 8 + (i - 8) = i by omega, decide_true,
      Bool.true_and] at this
    exact this

/-- The hard-wired bits of the AF cell are zero exactly when masking them changes nothing. -/
theorem afLow_zero_iff (p : Word) : p &&& 0x000F#16 = 0#16 ↔ p &&& afMask = p := by
  have split : p = (p &&& afMask) ||| (p &&& 0x000F#16) := by
    rw [← BitVec.and_or_distrib_left, show afMask ||| 0x000F#16 = BitVec.allOnes 16 by decide, BitVec.and_allOnes]
  constructor
  · intro h
    rw [h, BitVec.or_zero] at split
    exact split.symm
  · intro h
    rw [← h, BitVec.and_assoc, show afMask &&& 0x000F#16 = 0#16 by decide, BitVec.and_zero]

theorem readReg8_a (s : State) : readReg8 .a s = highByte s.af := highByte_and_afMask s.af

theorem readReg8_f (s : State) : readReg8 .f s = lowByte s.af &&& flagsMask := lowByte_and_afMask s.af

/-- No write of an 8-bit register touches PC, SP, RUN or the store. -/
theorem writeReg8_frame (r : Reg8) (v : Byte) (s : State) :
    (writeReg8 r v s).pc = s.pc ∧ (writeReg8 r v s).sp = s.sp ∧ (writeReg8 r v s).run = s.run ∧
      (writeReg8 r v s).mem = s.mem := by
  cases r <;> exact ⟨rfl, rfl, rfl, rfl⟩

/-- No write of a 16-bit register touches RUN or the store. -/
theorem writeReg16_frame (r : Reg16) (v : Word) (s : State) :
    (writeReg16 r v s).run = s.run ∧ (writeReg16 r v s).mem = s.mem := by
  cases r <;> exact ⟨rfl, rfl⟩

end Sys2Proof.Machine
end

