-- ==== Sys2Proof/Laws/Flags.lean ====
section
/-! SUPPORT. What packing, unpacking and the flag ALU give. -/

namespace Sys2Proof.Machine

theorem unpackFlags_packFlags (fl : Flags) : unpackFlags (packFlags fl) = fl := by
  obtain ⟨z, n, h, c⟩ := fl
  cases z <;> cases n <;> cases h <;> cases c <;> decide

/-- The packed byte has no bit outside 7..4. -/
theorem packFlags_and_flagsMask (fl : Flags) : packFlags fl &&& flagsMask = packFlags fl := by
  obtain ⟨z, n, h, c⟩ := fl
  cases z <;> cases n <;> cases h <;> cases c <;> decide

/-- Unpacking and packing a byte drops its bits 3..0 and nothing else. -/
theorem packFlags_unpackFlags (f : Byte) : packFlags (unpackFlags f) = f &&& flagsMask := by
  revert f
  decide

theorem aluAdd8_result_toNat (dst src : Byte) : (aluAdd8 dst src).result.toNat = (dst.toNat + src.toNat) % 256 := by
  simp [aluAdd8]

theorem aluAdd8_result (dst src : Byte) : (aluAdd8 dst src).result = dst + src := by
  apply BitVec.eq_of_toNat_eq
  simp [aluAdd8_result_toNat, BitVec.toNat_add]

/-- The low nibble as the remainder by 16. -/
theorem lowNibble_toNat (v : Byte) : (v &&& 0x0F#8).toNat = v.toNat % 16 := by
  rw [BitVec.toNat_and]
  exact Nat.and_two_pow_sub_one_eq_mod v.toNat 4

end Sys2Proof.Machine
end

