-- ==== Sys2Proof/Laws/Exec.lean ====
section
/-! SUPPORT. What each meaning can do, once. -/

namespace Sys2Proof.Machine

/-- AF after `ADD A, B`: the result over the packed flags (R124). -/
def afAfterAdd (s : State) : Word :=
  withLowByte (withHighByte s.af (aluAdd8 (readReg8 .a s) (readReg8 .b s)).result)
    (packFlags (aluAdd8 (readReg8 .a s) (readReg8 .b s)).flags)

theorem exec_nop (s : State) : exec .nop s = .next s := rfl

/-- ADD A, B writes the AF cell and nothing else. -/
theorem exec_addAB (s : State) : exec .addAB s = .next (s.setAf (afAfterAdd s)) := by
  simp only [exec, execAddAB, writeFlags, writeReg8, packFlags_and_flagsMask, afAfterAdd]
  rfl

theorem highByte_afAfterAdd (s : State) :
    highByte (afAfterAdd s) = (aluAdd8 (readReg8 .a s) (readReg8 .b s)).result := by
  rw [afAfterAdd, highByte_withLowByte, highByte_withHighByte]

theorem lowByte_afAfterAdd (s : State) :
    lowByte (afAfterAdd s) = packFlags (aluAdd8 (readReg8 .a s) (readReg8 .b s)).flags := by
  rw [afAfterAdd, lowByte_withLowByte]

end Sys2Proof.Machine
end

