-- ==== Sys2Proof/Laws/Memory.lean ====
section
/-! SUPPORT. What the store's operations do: read after write, and that a write keeps the canonical form. -/

namespace Sys2Proof.Machine

/-- Every listed address lies above `a`. -/
abbrev cellsAbove (a : Nat) (cs : List Host.Cell) : Prop := ∀ c ∈ cs, a < c.1

/-- An address below every listed one is not listed. -/
theorem cellAt_of_cellsAbove {cs : List Host.Cell} {a : Nat} (h : cellsAbove a cs) :
    cellAt cs a = Config.unlistedByte := by
  induction cs with
  | nil => rfl
  | cons c rest ih =>
    have hc : a < c.1 := h c (by simp)
    have hr : cellsAbove a rest := fun d hd => h d (by simp [hd])
    simp [cellAt, Nat.ne_of_lt hc, ih hr]

/-- A write leaves every other byte alone. -/
theorem cellAt_setCell_ne {cs : List Host.Cell} {a b : Nat} (v : Byte) (hab : b ≠ a) :
    cellAt (setCell cs a v) b = cellAt cs b := by
  induction cs with
  | nil => by_cases hv : v = Config.unlistedByte <;> simp [setCell, cellAt, hv, hab]
  | cons c rest ih =>
    obtain ⟨k, w⟩ := c
    simp only [setCell]
    split
    · split <;> simp [cellAt, hab]
    · split
      · rename_i hak
        subst hak
        split <;> simp [cellAt, hab]
      · simp [cellAt, ih]

/-- A read after a write to the same byte gives the value written. -/
theorem cellAt_setCell_same {cs : List Host.Cell} (hs : (cs.map Prod.fst).Pairwise (· < ·)) (a : Nat) (v : Byte) :
    cellAt (setCell cs a v) a = v := by
  induction cs with
  | nil => by_cases hv : v = Config.unlistedByte <;> simp [setCell, cellAt, hv]
  | cons c rest ih =>
    obtain ⟨k, w⟩ := c
    simp only [List.map_cons, List.pairwise_cons] at hs
    have hab : cellsAbove k rest := fun d hd => hs.1 d.1 (List.mem_map_of_mem hd)
    simp only [setCell]
    split
    · rename_i hak
      have : cellsAbove a rest := fun d hd => Nat.lt_trans hak (hab d hd)
      split
      · rename_i hv
        simp [cellAt, Nat.ne_of_lt hak, cellAt_of_cellsAbove this, hv]
      · simp [cellAt]
    · split
      · rename_i hak
        subst hak
        split
        · rename_i hv
          simp [cellAt_of_cellsAbove hab, hv]
        · simp [cellAt]
      · rename_i hak
        simp [cellAt, hak, ih hs.2]

/-- Every cell after a write is the written one, and then not the unlisted value, or was there before. -/
theorem mem_setCell {cs : List Host.Cell} {a : Nat} {v : Byte} {c : Host.Cell} (h : c ∈ setCell cs a v) :
    (c = (a, v) ∧ v ≠ Config.unlistedByte) ∨ c ∈ cs := by
  induction cs with
  | nil => by_cases hv : v = Config.unlistedByte <;> simp_all [setCell]
  | cons d rest ih =>
    obtain ⟨k, w⟩ := d
    simp only [setCell] at h
    split at h
    · split at h
      · exact .inr h
      · rcases List.mem_cons.mp h with rfl | h
        · exact .inl ⟨rfl, ‹_›⟩
        · exact .inr h
    · split at h
      · split at h
        · exact .inr (List.mem_cons_of_mem _ h)
        · rcases List.mem_cons.mp h with rfl | h
          · exact .inl ⟨rfl, ‹_›⟩
          · exact .inr (List.mem_cons_of_mem _ h)
      · rcases List.mem_cons.mp h with rfl | h
        · exact .inr (by simp)
        · exact (ih h).imp_right (List.mem_cons_of_mem _)

/-- A write keeps the addresses strictly rising. -/
theorem setCell_sorted {cs : List Host.Cell} (hs : (cs.map Prod.fst).Pairwise (· < ·)) (a : Nat) (v : Byte) :
    ((setCell cs a v).map Prod.fst).Pairwise (· < ·) := by
  induction cs with
  | nil => by_cases hv : v = Config.unlistedByte <;> simp [setCell, hv]
  | cons c rest ih =>
    obtain ⟨k, w⟩ := c
    have hs' := hs
    simp only [List.map_cons, List.pairwise_cons] at hs
    have hab : cellsAbove k rest := fun d hd => hs.1 d.1 (List.mem_map_of_mem hd)
    simp only [setCell]
    split
    · rename_i hak
      split
      · exact hs'
      · refine List.pairwise_cons.mpr ⟨fun x hx => ?_, hs'⟩
        rcases List.mem_cons.mp hx with rfl | hx
        · exact hak
        · exact Nat.lt_trans hak (hs.1 x hx)
    · split
      · rename_i hak
        subst hak
        split
        · exact hs.2
        · exact hs'
      · rename_i hlt hne
        refine List.pairwise_cons.mpr ⟨fun x hx => ?_, ih hs.2⟩
        obtain ⟨d, hd, rfl⟩ := List.mem_map.mp hx
        rcases mem_setCell hd with ⟨rfl, -⟩ | hd
        · show k < a
          omega
        · exact hab d hd

@[simp] theorem Memory.setByte_size (m : Memory) (a : Nat) (v : Byte) : (m.setByte a v).size = m.size := rfl

theorem Memory.byteAt_setByte_ne (m : Memory) {a b : Nat} (v : Byte) (h : b ≠ a) :
    (m.setByte a v).byteAt b = m.byteAt b := cellAt_setCell_ne v h

theorem Memory.byteAt_setByte_same {m : Memory} (hm : m.wf) (a : Nat) (v : Byte) :
    (m.setByte a v).byteAt a = v := cellAt_setCell_same hm.1 a v

/-- A write inside the store keeps its canonical form. -/
theorem Memory.setByte_wf {m : Memory} (hm : m.wf) {a : Nat} (ha : a < m.size) (v : Byte) : (m.setByte a v).wf := by
  refine ⟨setCell_sorted hm.1 a v, fun c hc => ?_⟩
  rcases mem_setCell hc with ⟨rfl, hv⟩ | hc
  · exact ⟨ha, hv⟩
  · exact hm.2 c hc

/-- MemWrite keeps the canonical form. -/
theorem memWrite_wf {m m' : Memory} (hm : m.wf) {addr : Word} {v : Byte} (h : memWrite m addr v = .ok m') : m'.wf := by
  unfold memWrite at h
  split at h
  · cases h
  · cases h
    exact Memory.setByte_wf hm (by omega) v

/-- The reset store is in canonical form. -/
theorem reset_mem_wf : State.reset.mem.wf := by decide

/-- A canonical store is determined by its size and what its bytes read as. -/
theorem cells_ext {xs ys : List Host.Cell} (hx : (xs.map Prod.fst).Pairwise (· < ·))
    (hy : (ys.map Prod.fst).Pairwise (· < ·)) (vx : ∀ c ∈ xs, c.2 ≠ Config.unlistedByte)
    (vy : ∀ c ∈ ys, c.2 ≠ Config.unlistedByte) (h : ∀ a, cellAt xs a = cellAt ys a) : xs = ys := by
  induction xs generalizing ys with
  | nil =>
    cases ys with
    | nil => rfl
    | cons d ys =>
      have := h d.1
      simp only [cellAt] at this
      exact absurd this.symm (vy d (by simp))
  | cons c xs ih =>
    cases ys with
    | nil =>
      have := h c.1
      simp only [cellAt] at this
      exact absurd this (vx c (by simp))
    | cons d ys =>
      obtain ⟨k, w⟩ := c
      obtain ⟨l, u⟩ := d
      simp only [List.map_cons, List.pairwise_cons] at hx hy
      have ax : cellsAbove k xs := fun e he => hx.1 e.1 (List.mem_map_of_mem he)
      have ay : cellsAbove l ys := fun e he => hy.1 e.1 (List.mem_map_of_mem he)
      have hkl : k = l := by
        rcases Nat.lt_trichotomy k l with hlt | heq | hgt
        · have hk := h k
          have : cellsAbove k ys := fun e he => Nat.lt_trans hlt (ay e he)
          simp only [cellAt, if_true, Nat.ne_of_lt hlt, if_false, cellAt_of_cellsAbove this] at hk
          exact absurd hk (vx (k, w) (by simp))
        · exact heq
        · have hl := h l
          have : cellsAbove l xs := fun e he => Nat.lt_trans hgt (ax e he)
          simp only [cellAt, if_true, Nat.ne_of_lt hgt, if_false, cellAt_of_cellsAbove this] at hl
          exact absurd hl.symm (vy (l, u) (by simp))
      subst hkl
      have hwu : w = u := by simpa [cellAt] using h k
      subst hwu
      congr 1
      refine ih hx.2 hy.2 (fun e he => vx e (by simp [he])) (fun e he => vy e (by simp [he])) fun a => ?_
      by_cases hak : a = k
      · subst hak
        rw [cellAt_of_cellsAbove ax, cellAt_of_cellsAbove ay]
      · simpa [cellAt, hak] using h a

end Sys2Proof.Machine
end

