-- ==== Sys2Proof/Laws/PerInstr.lean ====
section
/-! SUPPORT. One statement for every instruction as syntax, a lemma per constructor. -/

namespace Sys2Proof.Laws.OpcodeMap

/-- The instruction has a well-formed row of its own in the opcode map, and its encoding is the pattern that row
matches (R71). -/
def Statement (i : Instr) : Prop :=
  i.wellFormed = true ∧
    ∃ row ∈ opcodeTable, row.wellFormed = true ∧ row.instr = i ∧ encode i &&& row.mask = row.pattern

theorem nop : Statement .nop :=
  ⟨rfl, { mask := 0xFF#8, pattern := 0x00#8, instr := .nop }, by decide, by decide, rfl, by decide⟩

theorem addAB : Statement .addAB :=
  ⟨rfl, { mask := 0xFF#8, pattern := 0x80#8, instr := .addAB }, by decide, by decide, rfl, by decide⟩

end Sys2Proof.Laws.OpcodeMap
end

