-- ==== Sys2Proof/Laws/Step.lean ====
section
/-! SUPPORT. What decoding and one Step can do, once: the case analysis every statement about a Step starts from. -/

namespace Sys2Proof.Machine

/-- A byte decodes to NOP, to ADD A, B, or to UNIMPLEMENTED of itself. -/
theorem decode_cases (op : Byte) :
    (op = 0x00#8 ∧ decode op = .instr .nop) ∨ (op = 0x80#8 ∧ decode op = .instr .addAB) ∨
      (op ≠ 0x00#8 ∧ op ≠ 0x80#8 ∧ decode op = .unimplemented op) := by
  revert op
  decide

/-- What a Step does: repeat a recorded fault; fault on the fetch; run NOP; run ADD A, B; fault on dispatch. -/
theorem stepFull_cases (s : State) :
    (∃ e, s.run = .faulted e ∧ stepFull s = { state := s, outcome := .fault e }) ∨
    (s.run = .running ∧ s.mem.size ≤ s.pc.toNat ∧ stepFull s = raise s (.outOfRangeAddress s.pc .fetch)) ∨
    (s.run = .running ∧ s.pc.toNat < s.mem.size ∧ s.mem.byteAt s.pc.toNat = 0x00#8 ∧
      stepFull s = { state := advancePc s, outcome := .ok }) ∨
    (s.run = .running ∧ s.pc.toNat < s.mem.size ∧ s.mem.byteAt s.pc.toNat = 0x80#8 ∧
      stepFull s = { state := (advancePc s).setAf (afAfterAdd s), outcome := .ok }) ∨
    (s.run = .running ∧ s.pc.toNat < s.mem.size ∧ s.mem.byteAt s.pc.toNat ≠ 0x00#8 ∧
      s.mem.byteAt s.pc.toNat ≠ 0x80#8 ∧
      stepFull s = raise s (.unimplementedOpcode (s.mem.byteAt s.pc.toNat) s.pc)) := by
  unfold stepFull
  cases hr : s.run with
  | faulted e => exact .inl ⟨e, rfl, rfl⟩
  | running =>
    refine .inr ?_
    by_cases hpc : s.mem.size ≤ s.pc.toNat
    · exact .inl ⟨rfl, hpc, by simp [memRead, hpc]⟩
    refine .inr ?_
    have hlt : s.pc.toNat < s.mem.size := Nat.lt_of_not_le hpc
    simp only [memRead, hpc, if_false, dispatchByte]
    rcases decode_cases (s.mem.byteAt s.pc.toNat) with ⟨hb, hd⟩ | ⟨hb, hd⟩ | ⟨h0, h8, hd⟩
    · exact .inl ⟨trivial, hlt, hb, by simp only [hd, exec_nop, finishStep]⟩
    · exact .inr (.inl ⟨trivial, hlt, hb, by simp only [hd, exec_addAB, finishStep]; rfl⟩)
    · exact .inr (.inr ⟨trivial, hlt, h0, h8, by simp only [hd]⟩)

end Sys2Proof.Machine
end

