-- ==== Sys2Proof/Laws/Run.lean ====
section
/-! SUPPORT. How a run of the host's interface unfolds: one Step, then the rest. -/

namespace Sys2Proof.Machine

theorem run_succ_of_next {M : Host.Core} {s t : M.State} (n : Nat) (h : M.step s = .next t) :
    M.run (n + 1) s = M.run n t := by
  rw [Host.Core.run, h]

theorem run_succ_of_fault {M : Host.Core} {s : M.State} {e : M.Fault} (n : Nat) (h : M.step s = .fault e) :
    M.run (n + 1) s = .fault e := by
  rw [Host.Core.run, h]

theorem run_succ_of_refused {M : Host.Core} {s : M.State} {r : M.Refusal} (n : Nat) (h : M.step s = .refused r) :
    M.run (n + 1) s = .refused r := by
  rw [Host.Core.run, h]

theorem core_run_zero (s : State) : Sys2Proof.core.run 0 s = .next s := rfl

theorem core_run_succ_next {s t : State} (n : Nat) (h : step s = .next t) :
    Sys2Proof.core.run (n + 1) s = Sys2Proof.core.run n t :=
  run_succ_of_next (M := Sys2Proof.core) n h

theorem core_run_succ_fault {s : State} {e : Fault} (n : Nat) (h : step s = .fault e) :
    Sys2Proof.core.run (n + 1) s = .fault e :=
  run_succ_of_fault (M := Sys2Proof.core) n h

theorem core_run_succ_refused {s : State} {r : Refusal} (n : Nat) (h : step s = .refused r) :
    Sys2Proof.core.run (n + 1) s = .refused r :=
  run_succ_of_refused (M := Sys2Proof.core) n h

end Sys2Proof.Machine
end

