-- ==== Sys2Proof/Tests/Slice0.lean ====
section
/-! SUPPORT. Checks of the model against the spec's own vectors (95_test_vectors.md), the smoke tests of the
well-formedness checks, and for every statement with hypotheses a state and operands that meet them. -/

namespace Sys2Proof.Tests

open Sys2Proof Sys2Proof.Machine

/-- The next state of an outcome, so that it can be compared. -/
def nextOf : Host.Outcome State Fault Refusal → Option State
  | .next s => some s
  | _ => none

/-- The fault of an outcome, so that it can be compared. -/
def faultOf : Host.Outcome State Fault Refusal → Option Fault
  | .fault e => some e
  | _ => none

/-- The reset state with PC, AF and BC as given and one byte stored at PC. -/
def at_ (pc : Word) (op : Byte) (af bc : Word) : State :=
  { State.reset with pc := pc, af := af, bc := bc, mem := State.reset.mem.setByte pc.toNat op }

/-- A running instance whose store of 0x8000 bytes is too small, PC just beyond it (vector OOR1). -/
def smallStore : State := { State.reset with pc := 0x8000#16, mem := { size := 0x8000, cells := [] } }

/-- An instance faulted as vector U1 leaves it. -/
def faultedAt0 : State := { at_ 0#16 0xFF#8 0x1000#16 0x2000#16 with run := .faulted (.unimplementedOpcode 0xFF#8 0#16) }

/-! ### The decoder (30_encoding.md R71, R76: words written out bit by bit) -/

theorem test_decode_nop : decode 0b00000000#8 = .instr .nop := by decide
theorem test_decode_addAB : decode 0b10000000#8 = .instr .addAB := by decide
theorem test_decode_one_bit_off : decode 0b10000001#8 = .unimplemented 0x81#8 := by decide
theorem test_decode_prefix_elsewhere : decode 0b11001011#8 = .unimplemented 0xCB#8 := by decide
theorem test_decodeTableWord_addAB : decodeTableWord 8 128 = some .addAB := by decide
theorem test_listing : listing 0xCB#8 = "DB 0xCB" := by decide

/-! ### Well-formedness: one ill-formed term for each check (an `Instr` has no check: R73) -/

theorem test_row_mask_refused :
    ({ mask := 0xF0#8, pattern := 0x80#8, instr := .addAB } : OpcodeRow).wellFormed = false := by decide
theorem test_rows_accepted : ∀ r ∈ opcodeTable, r.wellFormed = true := by decide
theorem test_launch_accepted : resetLaunch.wellFormed := by decide
theorem test_launch_small_store_refused :
    ¬ ({ resetLaunch with mem := { size := 0xFFFF, cells := [] } } : Launch).wellFormed := by decide
theorem test_launch_unsorted_refused :
    ¬ ({ resetLaunch with mem := { size := 0x10000, cells := [(2, 1#8), (1, 1#8)] } } : Launch).wellFormed := by decide
theorem test_launch_listed_default_refused :
    ¬ ({ resetLaunch with mem := { size := 0x10000, cells := [(2, 0#8)] } } : Launch).wellFormed := by decide
theorem test_launch_cell_outside_refused :
    ¬ ({ resetLaunch with mem := { size := 0x10000, cells := [(0x10000, 1#8)] } } : Launch).wellFormed := by decide

/-! ### Instructions (vectors NOP1, NOP2, ADD11, ADD17, ADD19) -/

theorem test_nop_keeps_everything :
    nextOf (step (at_ 0x0200#16 0x00#8 0x12F0#16 0x3456#16)) = some (at_ 0x0201#16 0x00#8 0x12F0#16 0x3456#16) := by decide
theorem test_nop_wraps_pc : (nextOf (step (at_ 0xFFFF#16 0x00#8 0#16 0#16))).map (·.pc) = some 0x0000#16 := by decide
theorem test_add_zero_half_carry_and_carry :
    (nextOf (step (at_ 0xFFFF#16 0x80#8 0xF100#16 0x0F99#16))).map (fun s => (s.af, s.bc, s.pc))
      = some (0x00B0#16, 0x0F99#16, 0x0000#16) := by decide
theorem test_add_ignores_old_flags :
    (nextOf (step (at_ 0#16 0x80#8 0x0150#16 0x0100#16))).map (·.af) = some 0x0200#16 := by decide

/-! ### Faults (vectors U1, U6, HALT1, OOR1) -/

theorem test_unimplemented_is_atomic :
    stepFull (at_ 0#16 0xFF#8 0x1000#16 0x2000#16)
      = { state := faultedAt0, outcome := .fault (.unimplementedOpcode 0xFF#8 0#16) } := by decide
theorem test_unimplemented_no_wrap :
    faultOf (step (at_ 0xFFFF#16 0x76#8 0#16 0#16)) = some (.unimplementedOpcode 0x76#8 0xFFFF#16) := by decide
theorem test_halted_after_host_write :
    stepFull (applyEvent faultedAt0 (.busWrite 0#16 0x00#8)).state
      = { state := (applyEvent faultedAt0 (.busWrite 0#16 0x00#8)).state,
          outcome := .fault (.unimplementedOpcode 0xFF#8 0#16) } := by decide
theorem test_fetch_out_of_range :
    faultOf (step smallStore) = some (.outOfRangeAddress 0x8000#16 .fetch) := by decide

/-! ### Accessors, flags, ALU_SUB8, host writes (vectors RF1, RF2, RF7 to RF11, SUB2, SUB4, program P4) -/

theorem test_rf1 : (writeReg8 .b 0xAB#8 (at_ 0#16 0#8 0#16 0x1234#16)).bc = 0xAB34#16 := by decide
theorem test_rf2 : (writeReg8 .c 0xCD#8 (at_ 0#16 0#8 0#16 0x1234#16)).bc = 0x12CD#16 := by decide
theorem test_rf7 : (writeReg8 .f 0xFF#8 (at_ 0#16 0#8 0x12B0#16 0#16)).af = 0x12F0#16 := by decide
theorem test_rf8 : (writeReg16 .af 0xFFFF#16 State.reset).af = 0xFFF0#16 := by decide
theorem test_rf9 : (writeFlag .h true (at_ 0#16 0#8 0x1200#16 0#16)).af = 0x1220#16 := by decide
theorem test_rf10 : (writeFlag .c false (at_ 0#16 0#8 0x12F0#16 0#16)).af = 0x12E0#16 := by decide
theorem test_rf11 :
    readFlags (at_ 0#16 0#8 0x00A0#16 0#16) = { z := true, n := false, h := true, c := false } := by decide
theorem test_sub2 :
    aluSub8 0x00#8 0x01#8 = { result := 0xFF#8, flags := { z := false, n := true, h := true, c := true } } := by decide
theorem test_sub4 :
    aluSub8 0x3E#8 0x0F#8 = { result := 0x2F#8, flags := { z := false, n := true, h := true, c := false } } := by decide
theorem test_host_write_then_fetch :
    (nextOf (step (applyEvent (at_ 1#16 0x00#8 0x2000#16 0x2000#16) (.busWrite 1#16 0x80#8)).state)).map (·.af)
      = some 0x4000#16 := by decide
theorem test_store_write_above_64k :
    storeRead (storeWrite { State.reset with mem := { size := 0x10001, cells := [] } } 0x10000 7#8).state 0x10000
      = some 7#8 := by decide
theorem test_fetch_word_runs : (nextOf (step (State.reset.withFetchWord 8 128))).map (·.af) = some 0x0080#16 := by decide

/-! ### Witnesses: the hypotheses of each statement, met together (a boundary value for each clause) -/

theorem witness_StepRunsDecodedInstruction :
    (at_ 0xFFFF#16 0x80#8 0#16 0#16).run = .running ∧
      memRead (at_ 0xFFFF#16 0x80#8 0#16 0#16).mem 0xFFFF#16 .fetch = .ok 0x80#8 ∧ decode 0x80#8 = .instr .addAB := by
  decide
theorem witness_DecodeAndEncodeAgree :
    encode .nop ≠ 0x01#8 ∧ encode .addAB ≠ 0x01#8 ∧ decode 0x80#8 = .instr .addAB := by decide
theorem witness_PlacedWordIsRunNext :
    Config.minMemSize ≤ State.reset.mem.size ∧ State.reset.mem.wf ∧ decodeTableWord 8 128 = some .addAB ∧
      decodeTableWord 8 1 = none := by decide
theorem witness_StepOnNopByteMovesOnlyPc :
    (at_ 0xFFFF#16 0x00#8 0#16 0#16).run = .running ∧
      (0xFFFF#16).toNat < (at_ 0xFFFF#16 0x00#8 0#16 0#16).mem.size ∧
      (at_ 0xFFFF#16 0x00#8 0#16 0#16).mem.byteAt (0xFFFF#16).toNat = 0x00#8 := by decide
theorem witness_StepOnAddByteAddsBToA :
    (at_ 0xFFFF#16 0x80#8 0xFF00#16 0x0100#16).run = .running ∧
      (0xFFFF#16).toNat < (at_ 0xFFFF#16 0x80#8 0xFF00#16 0x0100#16).mem.size ∧
      (at_ 0xFFFF#16 0x80#8 0xFF00#16 0x0100#16).mem.byteAt (0xFFFF#16).toNat = 0x80#8 := by decide
theorem witness_CompletedStepFrame :
    nextOf (step State.reset) = some (at_ 1#16 0#8 0#16 0#16) ∧ State.reset.mem.byteAt State.reset.pc.toNat ≠ 0x80#8 := by
  decide
theorem witness_StepReadsOnlyPcStoreRunAAndB :
    let s := at_ 0#16 0x80#8 0x1000#16 0x2000#16
    let t := { at_ 0#16 0x80#8 0x10F0#16 0x2099#16 with sp := 1#16, de := 2#16, hl := 3#16 }
    s ≠ t ∧ s.pc = t.pc ∧ s.mem = t.mem ∧ s.run = t.run ∧ readReg8 .a s = readReg8 .a t ∧
      readReg8 .b s = readReg8 .b t ∧ (nextOf (step s)).isSome := by decide
theorem witness_UnimplementedOpcodeFaultNamesByteAndAddress :
    (at_ 0xFFFF#16 0x81#8 0#16 0#16).run = .running ∧
      memRead (at_ 0xFFFF#16 0x81#8 0#16 0#16).mem 0xFFFF#16 .fetch = .ok 0x81#8 ∧
      (0x81#8 : Byte) ≠ 0x00#8 ∧ (0x81#8 : Byte) ≠ 0x80#8 := by decide
theorem witness_FaultingStepIsAtomic :
    (stepFull (at_ 5#16 0x01#8 0#16 0#16)).outcome = .fault (.unimplementedOpcode 0x01#8 5#16) := by decide
theorem witness_FaultedStatusOutlastsEveryScript :
    faultedAt0.run = .faulted (.unimplementedOpcode 0xFF#8 0#16) := by decide
theorem witness_FetchBeyondStoreFaults :
    smallStore.run = .running ∧ smallStore.mem.size ≤ smallStore.pc.toNat := by decide
theorem witness_ConformingStoreHasNoAddressFault :
    Config.minMemSize ≤ State.reset.mem.size ∧ State.reset.run = .running := by decide
theorem witness_RunningStepFaultsOnlyInTwoWays :
    smallStore.run = .running ∧ faultOf (step smallStore) = some (.outOfRangeAddress 0x8000#16 .fetch) ∧
      faultOf (step { smallStore with pc := 0x7FFF#16, mem := smallStore.mem.setByte 0x7FFF 0x7F#8 })
        = some (.unimplementedOpcode 0x7F#8 0x7FFF#16) := by decide
theorem witness_register_writes_spare_others : Reg8.c ≠ Reg8.b ∧ Reg16.pc ≠ Reg16.af := by decide
theorem witness_Reg8ReadsItsHalfOfThePair : (at_ 0#16 0#8 0xFFF0#16 0x1234#16).af &&& 0x000F#16 = 0#16 := by decide
theorem witness_FlagRoundTripThroughBothSyncs : (at_ 0#16 0#8 0x12F0#16 0#16).af &&& 0x000F#16 = 0#16 := by decide
theorem witness_SyncOperationsAreIdentities : (at_ 0#16 0#8 0xFFF0#16 0#16).af &&& 0x000F#16 = 0#16 := by decide
theorem witness_FlagsBytePackedAfterEveryOkStep :
    (at_ 0#16 0x80#8 0xFFF0#16 0xFF00#16).af &&& 0x000F#16 = 0#16 ∧
      (stepFull (at_ 0#16 0x80#8 0xFFF0#16 0xFF00#16)).outcome = .ok := by decide
theorem witness_MemReadIsBoundsChecked :
    (0x7FFF#16).toNat < smallStore.mem.size ∧ smallStore.mem.size ≤ (0x8000#16).toNat := by decide
theorem witness_MemWriteStoresExactlyOneByte :
    smallStore.mem.wf ∧ (0x7FFF#16).toNat < smallStore.mem.size ∧ smallStore.mem.size ≤ (0x8000#16).toNat := by decide
theorem witness_HostWriteIsSeenByNextFetch :
    State.reset.Inv ∧ State.reset.run = .running ∧ decode 0x80#8 = .instr .addAB ∧
      decode 0x81#8 = .unimplemented 0x81#8 := by decide
/-- A larger store that agrees with the reset store below 0x10000 and holds a byte above. -/
theorem witness_BytesBeyond64KAreUnreachable :
    Config.minMemSize ≤ State.reset.mem.size ∧
      Config.minMemSize ≤ ({ size := 0x10001, cells := [(0x10000, 7#8)] } : Memory).size ∧
      (∀ a < 0x10000, ({ size := 0x10001, cells := [(0x10000, 7#8)] } : Memory).byteAt a = State.reset.mem.byteAt a) := by
  refine ⟨by decide, by decide, fun a ha => ?_⟩
  simp [Memory.byteAt, cellAt, show a ≠ 0x10000 by omega]
/-- Supplied registers; the others stay free. -/
theorem witness_ConstructionSetsWhatCallerSupplies :
    resetLaunch.initAf = some 0#16 ∧ resetLaunch.initBc = some 0#16 ∧ resetLaunch.initDe = some 0#16 ∧
      resetLaunch.initHl = some 0#16 ∧ resetLaunch.initSp = some 0#16 := by decide
/-- A launch that leaves every register free. -/
theorem witness_ConstructionMeetsInvariant :
    ({ mem := { size := 0x10000, cells := [(0xFFFF, 0x80#8)] }, initPc := 0xFFFF#16, initAf := none, initBc := none,
       initDe := none, initHl := none, initSp := none, launchNo := 1 } : Launch).wellFormed := by decide
theorem witness_StepKeepsInvariant :
    (at_ 0xFFFF#16 0x80#8 0xFFF0#16 0xFF00#16).Inv ∧ (nextOf (step (at_ 0xFFFF#16 0x80#8 0xFFF0#16 0xFF00#16))).isSome := by
  decide
theorem witness_EveryScriptKeepsInvariant : faultedAt0.Inv ∧ (at_ 0xFFFF#16 0x80#8 0xFFF0#16 0xFF00#16).Inv := by decide
theorem witness_HostWritesKeepRun : (HostEvent.setFlag .z true) ≠ HostEvent.step := by decide
theorem witness_HostWriteBeyondStoreChangesNothing :
    smallStore.mem.size ≤ (0x8000#16).toNat ∧ State.reset.mem.size ≤ 0x10000 := by decide
theorem witness_RunIsStrictlySequential :
    Sys2Proof.core.run 1 State.reset = .next (at_ 1#16 0#8 0#16 0#16) := core_run_succ_next 0 rfl
theorem witness_RunAddsBOncePerAddByte :
    Sys2Proof.core.run 1 (at_ 0#16 0x80#8 0x0100#16 0x0200#16)
      = .next ((advancePc (at_ 0#16 0x80#8 0x0100#16 0x0200#16)).setAf 0x0300#16) := core_run_succ_next 0 rfl
theorem witness_RunCompletesExactlyOnImplementedBytes :
    State.reset.run = .running ∧ Config.minMemSize ≤ State.reset.mem.size ∧ byteAhead State.reset 0xFFFF = 0x00#8 := by
  decide
/-- A NOP, then an unimplemented byte: the fault comes at the second Step. -/
theorem witness_RunFaultsAtFirstUnimplementedByte :
    let s := { State.reset with mem := State.reset.mem.setByte 1 0x01#8 }
    s.run = .running ∧ Config.minMemSize ≤ s.mem.size ∧
      Sys2Proof.core.run 2 s = .fault (.unimplementedOpcode 0x01#8 1#16) := by
  refine ⟨by decide, by decide, ?_⟩
  exact (core_run_succ_next 1 rfl).trans (core_run_succ_fault 0 rfl)

end Sys2Proof.Tests
end

section
/-! PROOFS. The register file (10_state.md R21, R22, R24 to R26). The statements speak of bits 15:8 and 7:0 of a cell by
`extractLsb'`; the accessors are `highByte` and `lowByte`. The first two lemmas join the two spellings, so that each
statement follows from the laws of the halves in Laws/Registers. -/

namespace Sys2Proof.Machine

theorem extractLsb'_eight_eight (p : Word) : p.extractLsb' 8 8 = highByte p := by
  refine BitVec.eq_of_getLsbD_eq fun i _ => ?_
  rw [BitVec.getLsbD_extractLsb', highByte_getLsbD]

theorem extractLsb'_zero_eight (p : Word) : p.extractLsb' 0 8 = lowByte p := by
  refine BitVec.eq_of_getLsbD_eq fun i _ => ?_
  rw [BitVec.getLsbD_extractLsb', lowByte_getLsbD, Nat.zero_add]

/-- R24 for one cell. -/
theorem withHighByte_replaces_high_keeps_low (p : Word) (v : Byte) :
    (withHighByte p v).extractLsb' 8 8 = v ∧ (withHighByte p v).extractLsb' 0 8 = p.extractLsb' 0 8 := by
  simp only [extractLsb'_eight_eight, extractLsb'_zero_eight]
  exact ⟨highByte_withHighByte p v, lowByte_withHighByte p v⟩

/-- R25 for one cell. -/
theorem withLowByte_replaces_low_keeps_high (p : Word) (v : Byte) :
    (withLowByte p v).extractLsb' 0 8 = v ∧ (withLowByte p v).extractLsb' 8 8 = p.extractLsb' 8 8 := by
  simp only [extractLsb'_eight_eight, extractLsb'_zero_eight]
  exact ⟨lowByte_withLowByte p v, highByte_withLowByte p v⟩

/-- With its hard-wired bits zero, the AF cell is what AF reads as (R31). -/
theorem readReg16_af_of_low_zero {s : State} (h : s.af &&& 0x000F#16 = 0#16) : readReg16 .af s = s.af :=
  (afLow_zero_iff s.af).mp h

/-- F's read depends on the low byte of AF alone. -/
theorem readReg8_f_writeReg8_a (v : Byte) (s : State) : readReg8 .f (writeReg8 .a v s) = readReg8 .f s := by
  rw [readReg8_f, readReg8_f, writeReg8, State.setAf_af, lowByte_withHighByte]

/-- Settles O24: `highByte` and `lowByte` are the two bit ranges, and by the premise AF reads as its whole cell. -/
theorem reg8ReadsItsHalfOfThePair : Obligations.Reg8ReadsItsHalfOfThePair := by
  intro s hlow
  have haf : readReg16 .af s = s.af := readReg16_af_of_low_zero hlow
  simp only [extractLsb'_eight_eight, extractLsb'_zero_eight]
  exact ⟨congrArg highByte haf, congrArg lowByte haf, rfl, rfl, rfl, rfl, rfl, rfl⟩

/-- Settles O25: each of the four writes is `withHighByte` on its cell, and F reads the half that stays. -/
theorem highHalfWriteKeepsLowHalf : Obligations.HighHalfWriteKeepsLowHalf := fun s v =>
  ⟨withHighByte_replaces_high_keeps_low s.af v, withHighByte_replaces_high_keeps_low s.bc v,
    withHighByte_replaces_high_keeps_low s.de v, withHighByte_replaces_high_keeps_low s.hl v,
    readReg8_f_writeReg8_a v s⟩

/-- Settles O26: each of the three writes is `withLowByte` on its cell. -/
theorem lowHalfWriteKeepsHighHalf : Obligations.LowHalfWriteKeepsHighHalf := fun s v =>
  ⟨withLowByte_replaces_low_keeps_high s.bc v, withLowByte_replaces_low_keeps_high s.de v,
    withLowByte_replaces_low_keeps_high s.hl v⟩

/-- Settles O28: the new cell is the value itself, and the two 8-bit reads are its `highByte` and `lowByte`. -/
theorem pairWriteReplacesWholeCell : Obligations.PairWriteReplacesWholeCell := by
  intro s v
  rw [extractLsb'_eight_eight, extractLsb'_zero_eight]
  exact ⟨⟨rfl, rfl, rfl⟩, ⟨rfl, rfl, rfl⟩, ⟨rfl, rfl, rfl⟩⟩

end Sys2Proof.Machine
end

section
/-! PROOFS. The encoding (30_encoding.md R71, R72): which bytes are instructions, and that no Step refuses one. Both
follow from the case analyses of Laws/Step, `decode_cases` and `stepFull_cases`. -/

namespace Sys2Proof.Machine

/-- R71, read from the decoder. -/
theorem decode_eq_instr_iff (op : Byte) (i : Instr) :
    decode op = .instr i ↔ (op = 0x00#8 ∧ i = .nop) ∨ (op = 0x80#8 ∧ i = .addAB) := by
  rcases decode_cases op with ⟨rfl, hd⟩ | ⟨rfl, hd⟩ | ⟨h0, h8, hd⟩
  · simp [hd, eq_comm]
  · simp [hd, eq_comm]
  · simp [hd, h0, h8]

theorem opcodeTable_mask {row : OpcodeRow} (hrow : row ∈ opcodeTable) : row.mask = 0xFF#8 := by
  rcases List.mem_pair.mp hrow with rfl | rfl <;> rfl

/-- The host is told of a refusal only where the Step's own outcome is one. -/
theorem hostOutcome_eq_refused_iff (res : StepResult) (r : Refusal) :
    hostOutcome res = .refused r ↔ res.outcome = .refused r := by
  obtain ⟨s, _ | e | x⟩ := res <;> simp [hostOutcome]

/-- Each of the five things a Step can do ends Ok or in a fault (R90). -/
theorem stepFull_outcome_ne_refused (s : State) (r : Refusal) : (stepFull s).outcome ≠ .refused r := by
  rcases stepFull_cases s with ⟨e, -, h⟩ | ⟨-, -, h⟩ | ⟨-, -, -, h⟩ | ⟨-, -, -, h⟩ | ⟨-, -, -, -, h⟩ <;>
    simp [h, raise]

/-- Settles O2: the decoder's three cases give the equivalence; the map's two rows are read off. -/
theorem opcodeSetIsExactlyNopAndAddAB : Obligations.OpcodeSetIsExactlyNopAndAddAB :=
  ⟨decode_eq_instr_iff, fun _ hrow => opcodeTable_mask hrow, rfl⟩

/-- Settles O12: a refusal told to the host would be the Step's own outcome, and no case of a Step has that outcome. -/
theorem stepNeverRefuses : Obligations.StepNeverRefuses := fun s r hstep =>
  stepFull_outcome_ne_refused s r ((hostOutcome_eq_refused_iff (stepFull s) r).mp hstep)

end Sys2Proof.Machine
end

section
/-! PROOFS. The control family (41_control.md): NOP, and the Step that fetches its byte. The Step is the NOP case of
`stepFull_cases`; what it leaves is read off `advancePc`. -/

namespace Sys2Proof.Machine

/-- R92, in numbers; the wrap is D3 (log 10). -/
theorem advancePc_pc_toNat (s : State) : (advancePc s).pc.toNat = (s.pc.toNat + 1) % 65536 :=
  BitVec.toNat_add s.pc 1#16

/-- The hypotheses shut out every case of a Step but NOP's: a recorded fault, a fetch beyond the store, another byte. -/
theorem step_of_nop_byte {s : State} (hrun : s.run = .running) (hpc : s.pc.toNat < s.mem.size)
    (hbyte : s.mem.byteAt s.pc.toNat = 0x00#8) : step s = .next (advancePc s) := by
  rcases stepFull_cases s with
    ⟨e, hfaulted, -⟩ | ⟨-, hbeyond, -⟩ | ⟨-, -, -, hnop⟩ | ⟨-, -, hadd, -⟩ | ⟨-, -, hother, -, -⟩
  · exact absurd (hrun.symm.trans hfaulted) (by simp)
  · exact absurd hpc (Nat.not_lt.mpr hbeyond)
  · simp only [step, hnop, hostOutcome]
  · exact absurd (hbyte.symm.trans hadd) (by decide)
  · exact absurd hbyte hother

/-- Settles O9: the Step ends in `advancePc s`, which replaces PC and no other field. -/
theorem stepOnNopByteMovesOnlyPc : Obligations.StepOnNopByteMovesOnlyPc := fun s hrun hpc hbyte =>
  ⟨advancePc s, step_of_nop_byte hrun hpc hbyte, advancePc_pc_toNat s, rfl, rfl, rfl, rfl, rfl, rfl, rfl, fun _ => rfl⟩

/-- Settles O7: the meaning of NOP is the state it is given. -/
theorem nopCompletesAndChangesNothing : Obligations.NopCompletesAndChangesNothing := exec_nop

end Sys2Proof.Machine
end

section
/-! PROOFS. The arithmetic family (42_arith.md): the additive policy of ALU_ADD8 (R121). The model tests the 8-bit result
for Z, the rule the sum mod 256; `aluAdd8_result_toNat` says they are the same number. -/

namespace Sys2Proof.Machine

/-- Z of R121, in numbers: also a sum of 0x100 sets it. -/
theorem aluAdd8_z (dst src : Byte) :
    (aluAdd8 dst src).flags.z = decide ((dst.toNat + src.toNat) % 256 = 0) := by
  have hzero : (aluAdd8 dst src).result = 0#8 ↔ (dst.toNat + src.toNat) % 256 = 0 := by
    rw [← aluAdd8_result_toNat]
    exact BitVec.toNat_eq
  exact decide_eq_decide.mpr hzero

/-- Settles O20: result and Z are the lemmas above; N, H and C are the model's own formulas. -/
theorem aluAdd8FollowsAdditivePolicy : Obligations.AluAdd8FollowsAdditivePolicy := fun dst src =>
  ⟨aluAdd8_result_toNat dst src, aluAdd8_z dst src, rfl, rfl, rfl⟩

end Sys2Proof.Machine
end

section
/-! PROOFS. The fault family (60_exceptions.md): the fault of the 254 other bytes (R141). The Step is the last case of
`stepFull_cases`, and its record holds PC as it was before the fetch increment. -/

namespace Sys2Proof.Machine

/-- R52, read backwards: a successful read was inside the store and gave the byte there. -/
theorem memRead_eq_ok_iff {m : Memory} {a : Word} {k : AccessKind} {v : Byte} :
    memRead m a k = .ok v ↔ a.toNat < m.size ∧ m.byteAt a.toNat = v := by
  by_cases hbeyond : m.size ≤ a.toNat
  · simp [memRead, hbeyond]
  · simp [memRead, hbeyond, Nat.lt_of_not_le hbeyond]

/-- The hypotheses shut out every case of a Step but the fault on dispatch. -/
theorem stepFull_of_unimplemented_byte {s : State} (hrun : s.run = .running) (hpc : s.pc.toNat < s.mem.size)
    (h0 : s.mem.byteAt s.pc.toNat ≠ 0x00#8) (h8 : s.mem.byteAt s.pc.toNat ≠ 0x80#8) :
    stepFull s = raise s (.unimplementedOpcode (s.mem.byteAt s.pc.toNat) s.pc) := by
  rcases stepFull_cases s with
    ⟨e, hfaulted, -⟩ | ⟨-, hbeyond, -⟩ | ⟨-, -, hnop, -⟩ | ⟨-, -, hadd, -⟩ | ⟨-, -, -, -, hfault⟩
  · exact absurd (hrun.symm.trans hfaulted) (by simp)
  · exact absurd hpc (Nat.not_lt.mpr hbeyond)
  · exact absurd hnop h0
  · exact absurd hadd h8
  · exact hfault

/-- The host is told of a fault exactly where the Step's own outcome is one. -/
theorem step_eq_fault_iff (s : State) (e : Fault) : step s = .fault e ↔ (stepFull s).outcome = .fault e := by
  rw [step, hostOutcome]
  cases (stepFull s).outcome <;> simp

/-- Settles O14: the fetched byte is the store's byte at PC, and the Step on it faults with that byte and that PC. -/
theorem unimplementedOpcodeFaultNamesByteAndAddress : Obligations.UnimplementedOpcodeFaultNamesByteAndAddress := by
  intro s op hrun hfetch h0 h8
  obtain ⟨hpc, rfl⟩ := memRead_eq_ok_iff.mp hfetch
  have hfault : (stepFull s).outcome = .fault (.unimplementedOpcode (s.mem.byteAt s.pc.toNat) s.pc) :=
    congrArg StepResult.outcome (stepFull_of_unimplemented_byte hrun hpc h0 h8)
  exact ⟨(step_eq_fault_iff s _).mpr hfault, hfault⟩

end Sys2Proof.Machine
end

section
/-! PROOFS. The outcome of one Step at the host's interface (40_engine.md R90 to R97). `step_eq_next_iff` and
`step_eq_fault_iff_cause` say once when a Step completes, with what state, and when it faults, with what record. -/

namespace Sys2Proof.Machine

/-- A Step completes exactly on a running machine whose PC lies in the store and holds an implemented opcode. -/
theorem step_eq_next_iff (s t : State) :
    step s = .next t ↔ s.run = .running ∧ s.pc.toNat < s.mem.size ∧
      ((s.mem.byteAt s.pc.toNat = 0x00#8 ∧ t = advancePc s) ∨
        (s.mem.byteAt s.pc.toNat = 0x80#8 ∧ t = (advancePc s).setAf (afAfterAdd s))) := by
  rcases stepFull_cases s with
    ⟨e, hrun, h⟩ | ⟨hrun, hpc, h⟩ | ⟨hrun, hpc, hb, h⟩ | ⟨hrun, hpc, hb, h⟩ | ⟨hrun, hpc, h0, h8, h⟩
  · simp [step, hostOutcome, h, hrun]
  · simp [step, hostOutcome, h, raise, Nat.not_lt.mpr hpc]
  · simp [step, hostOutcome, h, hrun, hpc, hb, eq_comm]
  · simp [step, hostOutcome, h, hrun, hpc, hb, eq_comm]
  · simp [step, hostOutcome, h, raise, h0, h8]

/-- A Step faults exactly with the recorded fault of a faulted machine, on a fetch beyond the store, or on an
unimplemented byte (R97, R142, R141). -/
theorem step_eq_fault_iff_cause (s : State) (e : Fault) :
    step s = .fault e ↔ s.run = .faulted e ∨
      (s.run = .running ∧ s.mem.size ≤ s.pc.toNat ∧ e = .outOfRangeAddress s.pc .fetch) ∨
      (s.run = .running ∧ s.pc.toNat < s.mem.size ∧ s.mem.byteAt s.pc.toNat ≠ 0x00#8 ∧
        s.mem.byteAt s.pc.toNat ≠ 0x80#8 ∧ e = .unimplementedOpcode (s.mem.byteAt s.pc.toNat) s.pc) := by
  rcases stepFull_cases s with
    ⟨e', hrun, h⟩ | ⟨hrun, hpc, h⟩ | ⟨hrun, hpc, hb, h⟩ | ⟨hrun, hpc, hb, h⟩ | ⟨hrun, hpc, h0, h8, h⟩
  · simp [step, hostOutcome, h, hrun]
  · simp [step, hostOutcome, h, raise, hrun, hpc, Nat.not_lt.mpr hpc, eq_comm]
  · simp [step, hostOutcome, h, hrun, hpc, hb]
  · simp [step, hostOutcome, h, hrun, hpc, hb]
  · simp [step, hostOutcome, h, raise, hrun, hpc, Nat.not_le.mpr hpc, h0, h8, eq_comm]

/-- What a completed Step leaves of every field but AF, the store as a whole (R36, R92). -/
theorem step_next_frame {s t : State} (h : step s = .next t) :
    t.pc = s.pc + 1#16 ∧ t.bc = s.bc ∧ t.de = s.de ∧ t.hl = s.hl ∧ t.sp = s.sp ∧ t.run = s.run ∧ t.mem = s.mem := by
  obtain ⟨-, -, ⟨-, rfl⟩ | ⟨-, rfl⟩⟩ := (step_eq_next_iff s t).mp h <;> exact ⟨rfl, rfl, rfl, rfl, rfl, rfl, rfl⟩

/-- With a conforming store every 16-bit address is inside it (R51). -/
theorem addr_lt_of_conforming {m : Memory} (h : Config.minMemSize ≤ m.size) (addr : Word) : addr.toNat < m.size :=
  Nat.lt_of_lt_of_le addr.isLt h

/-- With a conforming store a running machine completes a Step exactly on an implemented opcode (R51, R102). -/
theorem step_completes_iff {s : State} (hrun : s.run = .running) (hsize : Config.minMemSize ≤ s.mem.size) :
    (∃ t, step s = .next t) ↔ s.mem.byteAt s.pc.toNat = 0x00#8 ∨ s.mem.byteAt s.pc.toNat = 0x80#8 := by
  simp [step_eq_next_iff, hrun, addr_lt_of_conforming hsize s.pc, exists_or]

/-- With a conforming store a running machine faults exactly on an unimplemented opcode (R51, R102, R141). -/
theorem step_faults_iff {s : State} (hrun : s.run = .running) (hsize : Config.minMemSize ≤ s.mem.size) (e : Fault) :
    step s = .fault e ↔ s.mem.byteAt s.pc.toNat ≠ 0x00#8 ∧ s.mem.byteAt s.pc.toNat ≠ 0x80#8 ∧
      e = .unimplementedOpcode (s.mem.byteAt s.pc.toNat) s.pc := by
  have hpc : s.pc.toNat < s.mem.size := addr_lt_of_conforming hsize s.pc
  simp [step_eq_fault_iff_cause, hrun, hpc, Nat.not_le.mpr hpc]

/-- Settles O19: the recorded fault is shut out by the premise, the other two causes are the two ways. -/
theorem runningStepFaultsOnlyInTwoWays : Obligations.RunningStepFaultsOnlyInTwoWays := by
  intro s e hrun
  simp [step_eq_fault_iff_cause, hrun]

/-- Settles O11: the frame of `step_next_frame`, and AF in the one completing case that is not the byte 0x80. -/
theorem completedStepFrame : Obligations.CompletedStepFrame := by
  intro s t h
  obtain ⟨hpc, hbc, hde, hhl, hsp, hrun, hmem⟩ := step_next_frame h
  refine ⟨hpc, hbc, hde, hhl, hsp, hrun, by rw [hmem], fun a => by rw [hmem], fun hbyte => ?_⟩
  obtain ⟨-, -, ⟨-, rfl⟩ | ⟨hadd, -⟩⟩ := (step_eq_next_iff s t).mp h
  · rfl
  · exact absurd hadd hbyte

end Sys2Proof.Machine
end

section
/-! PROOFS. Runs of n Steps (40_engine.md R98, R102). A run of n + 1 Steps is a run of n and one Step more, so each
statement is an induction on n whose step is one fact about a Step at the state the first n Steps reach: that state has
the store, RUN and B of the start and PC n further, so the byte it fetches is `byteAhead s n`. -/

namespace Sys2Proof.Machine

theorem run_succ_eq_next_iff (M : Host.Core) (n : Nat) (s t : M.State) :
    M.run (n + 1) s = .next t ↔ ∃ u, M.run n s = .next u ∧ M.step u = .next t := by
  induction n generalizing s with
  | zero => cases h : M.step s <;> simp [Host.Core.run, h]
  | succ n ih =>
    rw [Host.Core.run]
    cases h : M.step s with
    | next v => simpa [Host.Core.run, h] using ih v
    | fault e => simp [Host.Core.run, h]
    | refused r => simp [Host.Core.run, h]

theorem run_succ_eq_fault_iff (M : Host.Core) (n : Nat) (s : M.State) (e : M.Fault) :
    M.run (n + 1) s = .fault e ↔ M.run n s = .fault e ∨ ∃ u, M.run n s = .next u ∧ M.step u = .fault e := by
  induction n generalizing s with
  | zero => cases h : M.step s <;> simp [Host.Core.run, h]
  | succ n ih =>
    rw [Host.Core.run]
    cases h : M.step s with
    | next v => simpa [Host.Core.run, h] using ih v
    | fault e => simp [Host.Core.run, h]
    | refused r => simp [Host.Core.run, h]

/-- The machine's run, one Step more: it completes if the run completes and then that Step. -/
theorem core_run_succ_eq_next_iff (n : Nat) (s t : State) :
    Sys2Proof.core.run (n + 1) s = .next t ↔ ∃ u, Sys2Proof.core.run n s = .next u ∧ step u = .next t :=
  run_succ_eq_next_iff Sys2Proof.core n s t

/-- The machine's run, one Step more: it faults if the run faults, or completes and then that Step faults. -/
theorem core_run_succ_eq_fault_iff (n : Nat) (s : State) (e : Fault) :
    Sys2Proof.core.run (n + 1) s = .fault e ↔
      Sys2Proof.core.run n s = .fault e ∨ ∃ u, Sys2Proof.core.run n s = .next u ∧ step u = .fault e :=
  run_succ_eq_fault_iff Sys2Proof.core n s e

/-- Settles O49: each Step moves PC by one and leaves the rest, by the frame of a completed Step. -/
theorem runIsStrictlySequential : Obligations.RunIsStrictlySequential := by
  intro n s
  induction n with
  | zero =>
    rintro t ⟨⟩
    exact ⟨(BitVec.add_zero s.pc).symm, rfl, rfl, rfl, rfl, rfl, rfl⟩
  | succ n ih =>
    intro t h
    obtain ⟨u, hu, hstep⟩ := (core_run_succ_eq_next_iff n s t).mp h
    obtain ⟨hpc, hbc, hde, hhl, hsp, hrun, hmem⟩ := step_next_frame hstep
    obtain ⟨ipc, ibc, ide, ihl, isp, irun, imem⟩ := ih u hu
    refine ⟨?_, hbc.trans ibc, hde.trans ide, hhl.trans ihl, hsp.trans isp, hrun.trans irun, hmem.trans imem⟩
    rw [hpc, ipc, BitVec.add_assoc, ← BitVec.ofNat_add]

/-- After n completed Steps the next one fetches the byte n ahead of where the run began. -/
theorem byteAt_pc_after_run {n : Nat} {s u : State} (h : Sys2Proof.core.run n s = .next u) :
    u.mem.byteAt u.pc.toNat = byteAhead s n := by
  obtain ⟨hpc, -, -, -, -, -, hmem⟩ := runIsStrictlySequential n s u h
  rw [hpc, hmem, byteAhead]

/-- Completed Steps leave a running machine with a conforming store as one. -/
theorem conforming_after_run {n : Nat} {s u : State} (h : Sys2Proof.core.run n s = .next u) (hrun : s.run = .running)
    (hsize : Config.minMemSize ≤ s.mem.size) : u.run = .running ∧ Config.minMemSize ≤ u.mem.size := by
  obtain ⟨-, -, -, -, -, irun, imem⟩ := runIsStrictlySequential n s u h
  exact ⟨irun.trans hrun, by rwa [imem]⟩

/-- What a completed Step does to A (R110, R124). -/
theorem readReg8_a_after_step {s t : State} (h : step s = .next t) :
    (readReg8 .a t).toNat =
      ((readReg8 .a s).toNat + (if s.mem.byteAt s.pc.toNat = 0x80#8 then 1 else 0) * (readReg8 .b s).toNat) % 256 := by
  obtain ⟨-, -, ⟨hb, rfl⟩ | ⟨hb, rfl⟩⟩ := (step_eq_next_iff s t).mp h
  · simp only [hb, show ¬ (0x00#8 = 0x80#8) by decide, if_false, Nat.zero_mul, Nat.add_zero]
    exact (Nat.mod_eq_of_lt (readReg8 .a s).isLt).symm
  · rw [readReg8_a, State.setAf_af, highByte_afAfterAdd, aluAdd8_result_toNat, if_pos hb, Nat.one_mul]

/-- Settles O50: the last Step adds B once if the byte it fetches is 0x80, and `addsAhead` counts that same byte. -/
theorem runAddsBOncePerAddByte : Obligations.RunAddsBOncePerAddByte := by
  intro n s
  induction n with
  | zero =>
    rintro t ⟨⟩
    rw [addsAhead, Nat.zero_mul, Nat.add_zero]
    exact (Nat.mod_eq_of_lt (readReg8 .a s).isLt).symm
  | succ n ih =>
    intro t h
    obtain ⟨u, hu, hstep⟩ := (core_run_succ_eq_next_iff n s t).mp h
    obtain ⟨-, hbc, -, -, -, -, -⟩ := runIsStrictlySequential n s u hu
    have hb : readReg8 .b u = readReg8 .b s := congrArg highByte hbc
    rw [readReg8_a_after_step hstep, byteAt_pc_after_run hu, hb, ih u hu, addsAhead, Nat.mod_add_mod, Nat.add_mul,
      Nat.add_assoc]

/-- Settles O51: the Step after n completed ones completes exactly if the byte n ahead is implemented. -/
theorem runCompletesExactlyOnImplementedBytes : Obligations.RunCompletesExactlyOnImplementedBytes := by
  intro n s hrun hsize
  induction n with
  | zero => exact ⟨fun _ k hk => absurd hk (Nat.not_lt_zero k), fun _ => ⟨s, core_run_zero s⟩⟩
  | succ n ih =>
    have hlast : ∀ u, Sys2Proof.core.run n s = .next u →
        ((∃ t, step u = .next t) ↔ byteAhead s n = 0x00#8 ∨ byteAhead s n = 0x80#8) := by
      intro u hu
      obtain ⟨urun, usize⟩ := conforming_after_run hu hrun hsize
      rw [← byteAt_pc_after_run hu]
      exact step_completes_iff urun usize
    rw [Nat.forall_lt_succ_right, ← ih]
    constructor
    · rintro ⟨t, h⟩
      obtain ⟨u, hu, hstep⟩ := (core_run_succ_eq_next_iff n s t).mp h
      exact ⟨⟨u, hu⟩, (hlast u hu).mp ⟨t, hstep⟩⟩
    · rintro ⟨⟨u, hu⟩, hb⟩
      obtain ⟨t, hstep⟩ := (hlast u hu).mpr hb
      exact ⟨t, (core_run_succ_eq_next_iff n s t).mpr ⟨u, hu, hstep⟩⟩

/-- The fault of the Step after n completed ones, in terms of the bytes ahead of the start. -/
theorem core_run_then_step_fault_iff (n : Nat) {s : State} (e : Fault) (hrun : s.run = .running)
    (hsize : Config.minMemSize ≤ s.mem.size) :
    (∃ u, Sys2Proof.core.run n s = .next u ∧ step u = .fault e) ↔
      (∀ j < n, byteAhead s j = 0x00#8 ∨ byteAhead s j = 0x80#8) ∧ byteAhead s n ≠ 0x00#8 ∧ byteAhead s n ≠ 0x80#8 ∧
        e = .unimplementedOpcode (byteAhead s n) (s.pc + BitVec.ofNat 16 n) := by
  have hlast : ∀ u, Sys2Proof.core.run n s = .next u →
      (step u = .fault e ↔ byteAhead s n ≠ 0x00#8 ∧ byteAhead s n ≠ 0x80#8 ∧
        e = .unimplementedOpcode (byteAhead s n) (s.pc + BitVec.ofNat 16 n)) := by
    intro u hu
    obtain ⟨urun, usize⟩ := conforming_after_run hu hrun hsize
    obtain ⟨hpc, -⟩ := runIsStrictlySequential n s u hu
    rw [← byteAt_pc_after_run hu, ← hpc]
    exact step_faults_iff urun usize e
  rw [← runCompletesExactlyOnImplementedBytes n s hrun hsize]
  constructor
  · rintro ⟨u, hu, hstep⟩
    exact ⟨⟨u, hu⟩, (hlast u hu).mp hstep⟩
  · rintro ⟨⟨u, hu⟩, hfault⟩
    exact ⟨u, hu, (hlast u hu).mpr hfault⟩

/-- Settles O52: a run of n + 1 Steps faults within the first n, or at the last Step after n that completed. -/
theorem runFaultsAtFirstUnimplementedByte : Obligations.RunFaultsAtFirstUnimplementedByte := by
  intro n s e hrun hsize
  induction n with
  | zero => simp [core_run_zero]
  | succ n ih =>
    rw [core_run_succ_eq_fault_iff, ih, core_run_then_step_fault_iff n e hrun hsize, Nat.exists_lt_succ_right]

end Sys2Proof.Machine
end

section
/-! PROOFS. Reads after writes over the whole register file (10_state.md R20 to R27, R31), and AF's hard-wired bits. -/

namespace Sys2Proof.Machine

theorem readReg16_writeReg16_of_ne {r r' : Reg16} (h : r' ≠ r) (v : Word) (s : State) :
    readReg16 r' (writeReg16 r v s) = readReg16 r' s := by
  cases r <;> cases r' <;> simp [readReg16, writeReg16] at h ⊢

/-- A masked value has its masked-out bits zero already. -/
theorem and_afMask_and_afMask (v : Word) : v &&& afMask &&& afMask = v &&& afMask := by
  rw [BitVec.and_assoc, BitVec.and_self]

theorem and_flagsMask_and_flagsMask (v : Byte) : v &&& flagsMask &&& flagsMask = v &&& flagsMask := by
  rw [BitVec.and_assoc, BitVec.and_self]

/-- F and AF read without their hard-wired bits, whatever is stored. -/
theorem readReg8_f_and_flagsMask (s : State) : readReg8 .f s &&& flagsMask = readReg8 .f s := by
  rw [readReg8_f, and_flagsMask_and_flagsMask]

theorem and_flagsMask_low_zero (v : Byte) : v &&& flagsMask &&& 0x0F#8 = 0#8 := by
  rw [BitVec.and_assoc, show flagsMask &&& 0x0F#8 = 0#8 by decide, BitVec.and_zero]

theorem and_afMask_low_zero (v : Word) : v &&& afMask &&& 0x000F#16 = 0#16 :=
  (afLow_zero_iff _).mpr (and_afMask_and_afMask v)

/-- Settles O29: the read back is the mask's idempotence for AF, and any other cell is another field. -/
theorem reg16WriteReadsBackAndSparesOthers : Obligations.Reg16WriteReadsBackAndSparesOthers := by
  intro r v s
  obtain ⟨hrun, hmem⟩ := writeReg16_frame r v s
  refine ⟨?_, fun r' hne => readReg16_writeReg16_of_ne hne v s, hrun, hmem⟩
  cases r with
  | af => exact and_afMask_and_afMask v
  | bc | de | hl | pc | sp => rfl

theorem readReg8_writeReg8_same (r : Reg8) (v : Byte) (s : State) :
    readReg8 r (writeReg8 r v s) = if r = .f then v &&& flagsMask else v := by
  cases r with
  | a => exact (readReg8_a _).trans (highByte_withHighByte s.af v)
  | f =>
    rw [readReg8_f, writeReg8, State.setAf_af, lowByte_withLowByte, and_flagsMask_and_flagsMask]
    rfl
  | b => exact highByte_withHighByte s.bc v
  | d => exact highByte_withHighByte s.de v
  | h => exact highByte_withHighByte s.hl v
  | c => exact lowByte_withLowByte s.bc v
  | e => exact lowByte_withLowByte s.de v
  | l => exact lowByte_withLowByte s.hl v

/-- The other half of the written pair stays by the laws of the halves, and another pair is another field. -/
theorem readReg8_writeReg8_of_ne {r r' : Reg8} (h : r' ≠ r) (v : Byte) (s : State) :
    readReg8 r' (writeReg8 r v s) = readReg8 r' s := by
  cases r <;> cases r' <;>
    simp [readReg8, readReg16, writeReg8, highByte_and_afMask, lowByte_and_afMask, lowByte_withHighByte,
      highByte_withLowByte] at h ⊢

/-- Settles O27: one law for the same register, one for another, and the frame of `writeReg8_frame`. -/
theorem reg8WriteReadsBackAndSparesOthers : Obligations.Reg8WriteReadsBackAndSparesOthers := fun r v s =>
  ⟨readReg8_writeReg8_same r v s, fun _ hne => readReg8_writeReg8_of_ne hne v s, writeReg8_frame r v s⟩

/-- Settles O30: the reads are masked, and the two bit ranges of the AF cell are its `lowByte` and `highByte`. -/
theorem flagsByteLowNibbleIsHardwiredZero : Obligations.FlagsByteLowNibbleIsHardwiredZero := by
  intro s v w
  refine ⟨?_, and_afMask_low_zero s.af, ?_, ?_, rfl⟩
  · rw [readReg8_f]
    exact and_flagsMask_low_zero (lowByte s.af)
  · rw [extractLsb'_zero_eight]
    exact lowByte_withLowByte s.af (v &&& flagsMask)
  · rw [extractLsb'_eight_eight, extractLsb'_eight_eight]
    exact highByte_withLowByte s.af (v &&& flagsMask)

end Sys2Proof.Machine
end

section
/-! PROOFS. The flags as bits of the AF cell (10_state.md R30 to R34): a flag is one bit of AF, a flag write changes
that bit alone, and with one storage (D7, log 9) both sync operations are the identity. -/

namespace Sys2Proof.Machine

theorem flagBit_lt (f : Flag) : flagBit f < 8 := by
  cases f <;> decide

theorem readFlag_eq_af_getLsbD (f : Flag) (s : State) : readFlag f s = s.af.getLsbD (flagBit f) := by
  rw [readFlag, readReg8_f, BitVec.getLsbD_and, lowByte_getLsbD]
  cases f <;> simp [flagBit, flagsMask]

theorem flagInAf_getLsbD (f : Flag) (i : Nat) : (flagInAf f).getLsbD i = decide (i = flagBit f) := by
  have hbit : flagBit f < 16 := Nat.lt_trans (flagBit_lt f) (by decide)
  rw [flagInAf, ← BitVec.twoPow_eq, BitVec.getLsbD_twoPow, decide_eq_true hbit, Bool.true_and]
  exact decide_eq_decide.mpr eq_comm

theorem writeFlag_af_getLsbD (f : Flag) (b : Bool) (s : State) {i : Nat} (hi : i < 16) :
    (writeFlag f b s).af.getLsbD i = if i = flagBit f then b else s.af.getLsbD i := by
  cases b with
  | true =>
    rw [writeFlag, if_pos rfl, State.setAf_af, BitVec.getLsbD_or, flagInAf_getLsbD]
    by_cases h : i = flagBit f <;> simp [h]
  | false =>
    rw [writeFlag, if_neg Bool.false_ne_true, State.setAf_af, BitVec.getLsbD_and, BitVec.getLsbD_not, flagInAf_getLsbD]
    by_cases h : i = flagBit f <;> simp [h, hi]

theorem flagBit_injective : Function.Injective flagBit := by
  intro f g h
  cases f <;> cases g <;> simp [flagBit] at h ⊢

theorem readFlag_writeFlag (f g : Flag) (b : Bool) (s : State) :
    readFlag f (writeFlag g b s) = if f = g then b else readFlag f s := by
  have hi : flagBit f < 16 := Nat.lt_trans (flagBit_lt f) (by decide)
  simp only [readFlag_eq_af_getLsbD, writeFlag_af_getLsbD g b s hi, flagBit_injective.eq_iff]

/-- Writing a flag with what it reads as changes nothing. -/
theorem writeFlag_readFlag (f : Flag) (s : State) : writeFlag f (readFlag f s) s = s := by
  have haf : (writeFlag f (readFlag f s) s).af = s.af := by
    refine BitVec.eq_of_getLsbD_eq fun i hi => ?_
    rw [writeFlag_af_getLsbD f _ s hi, readFlag_eq_af_getLsbD]
    split
    · next h => rw [h]
    · rfl
  exact congrArg s.setAf haf

/-- A flag write does not reach A. -/
theorem readReg8_a_writeFlag (f : Flag) (b : Bool) (s : State) : readReg8 .a (writeFlag f b s) = readReg8 .a s := by
  rw [readReg8_a, readReg8_a]
  refine BitVec.eq_of_getLsbD_eq fun i hi => ?_
  have hne : 8 + i ≠ flagBit f := by have := flagBit_lt f; omega
  rw [highByte_getLsbD, highByte_getLsbD, writeFlag_af_getLsbD f b s (by omega), if_neg hne]

/-- F is the packing of the flags in every state (R34, D7). -/
theorem readReg8_f_eq_packFlags (s : State) : readReg8 .f s = packFlags (readFlags s) := by
  rw [readFlags, packFlags_unpackFlags, readReg8_f_and_flagsMask]

/-- The hard-wired bits of the cell, seen from its low byte. -/
theorem afLow_zero_iff_lowByte (p : Word) : p &&& 0x000F#16 = 0#16 ↔ lowByte p &&& flagsMask = lowByte p := by
  rw [afLow_zero_iff, ← lowByte_and_afMask]
  exact ⟨congrArg lowByte, pair_ext (highByte_and_afMask p)⟩

theorem lowByte_of_afLow_zero {s : State} (h : s.af &&& 0x000F#16 = 0#16) : lowByte s.af = readReg8 .f s := by
  rw [readReg8_f]
  exact ((afLow_zero_iff_lowByte s.af).mp h).symm

/-- A flag is no hard-wired bit, so a flag write leaves those zero. -/
theorem writeFlag_afLow_zero {s : State} (h : s.af &&& 0x000F#16 = 0#16) (f : Flag) (b : Bool) :
    (writeFlag f b s).af &&& 0x000F#16 = 0#16 := by
  have hflag : flagInAf f &&& 0x000F#16 = 0#16 := by cases f <;> decide
  cases b with
  | true => rw [writeFlag, if_pos rfl, State.setAf_af, BitVec.and_or_distrib_right, h, hflag, BitVec.or_zero]
  | false =>
    rw [writeFlag, if_neg Bool.false_ne_true, State.setAf_af, BitVec.and_assoc, BitVec.and_comm (~~~ flagInAf f),
      ← BitVec.and_assoc, h, BitVec.zero_and]

theorem syncToRegister_eq_self {s : State} (h : s.af &&& 0x000F#16 = 0#16) : syncToRegister s = s := by
  have haf : withLowByte s.af (packFlags (readFlags s) &&& flagsMask) = s.af := by
    refine pair_ext (highByte_withLowByte _ _) ?_
    rw [lowByte_withLowByte, packFlags_and_flagsMask, ← readReg8_f_eq_packFlags, lowByte_of_afLow_zero h]
  exact congrArg s.setAf haf

/-- Each of the four writes puts back the flag's own value. -/
theorem syncFromRegister_eq_self (s : State) : syncFromRegister s = s := by
  change writeFlag .c (readFlag .c s) (writeFlag .h (readFlag .h s) (writeFlag .n (readFlag .n s)
    (writeFlag .z (readFlag .z s) s))) = s
  simp only [writeFlag_readFlag]

/-- Settles O31: a flag is by definition its bit of F, which is that bit of the AF cell; F's mask clears the rest. -/
theorem flagsAreBitsSevenToFourOfF : Obligations.FlagsAreBitsSevenToFourOfF := by
  intro s
  refine ⟨⟨rfl, rfl, rfl, rfl⟩, ⟨readFlag_eq_af_getLsbD .z s, readFlag_eq_af_getLsbD .n s,
    readFlag_eq_af_getLsbD .h s, readFlag_eq_af_getLsbD .c s⟩, fun i hi => ?_⟩
  rw [readReg8_f, BitVec.getLsbD_and]
  interval_cases i <;> simp [flagsMask]

/-- Settles O32: the bits of AF after the write, and the read of the same flag. -/
theorem flagWriteChangesOneBitOfAf : Obligations.FlagWriteChangesOneBitOfAf := fun f b s =>
  ⟨fun _ hi => writeFlag_af_getLsbD f b s hi, (readFlag_writeFlag f f b s).trans (if_pos rfl), _, rfl⟩

/-- Settles O34: both syncs put back what is there. -/
theorem syncOperationsAreIdentities : Obligations.SyncOperationsAreIdentities := fun s h =>
  ⟨syncToRegister_eq_self h, syncFromRegister_eq_self s⟩

/-- Settles O33: the syncs are identities on the written state, each flag reads what was written last, and F is their
packing. -/
theorem flagRoundTripThroughBothSyncs : Obligations.FlagRoundTripThroughBothSyncs := by
  intro s z n h c hlow t
  have htlow : t.af &&& 0x000F#16 = 0#16 :=
    writeFlag_afLow_zero (writeFlag_afLow_zero (writeFlag_afLow_zero (writeFlag_afLow_zero hlow .z z) .n n) .h h) .c c
  have hflags : readFlags t = { z := z, n := n, h := h, c := c } := by
    change Flags.mk (readFlag .z t) (readFlag .n t) (readFlag .h t) (readFlag .c t) = _
    simp [t, readFlag_writeFlag]
  refine ⟨?_, ?_, ?_, ?_⟩
  · rw [syncToRegister_eq_self htlow, syncFromRegister_eq_self, hflags]
  · rw [readReg8_f_eq_packFlags, hflags, packFlags]
  · rw [extractLsb'_zero_eight, lowByte_of_afLow_zero htlow, readReg8_f]
    exact and_flagsMask_low_zero (lowByte t.af)
  · simp only [t, readReg8_a_writeFlag]

end Sys2Proof.Machine
end

section
/-! PROOFS. The flag ALU and ADD A, B (42_arith.md R120 to R124), and the Step on its byte. ADD A, B replaces the AF
cell by `afAfterAdd`, which depends on A and B alone. -/

namespace Sys2Proof.Machine

/-- The carry of an addition is the top bit of the sum that is one bit wider (R16). -/
theorem getLsbD_setWidth_succ_add {w : Nat} (x y : BitVec w) :
    (x.setWidth (w + 1) + y.setWidth (w + 1)).getLsbD w = decide (2 ^ w ≤ x.toNat + y.toNat) := by
  have hx := x.isLt
  have hy := y.isLt
  have hsum : (x.setWidth (w + 1) + y.setWidth (w + 1)).toNat = x.toNat + y.toNat := by
    rw [BitVec.toNat_add, BitVec.toNat_setWidth_of_le (Nat.le_succ w), BitVec.toNat_setWidth_of_le (Nat.le_succ w),
      Nat.mod_eq_of_lt (by omega)]
  have hmsb := BitVec.msb_eq_decide (x.setWidth (w + 1) + y.setWidth (w + 1))
  rwa [BitVec.msb_eq_getLsbD_last, hsum, Nat.add_sub_cancel] at hmsb

/-- Settles O21: the result is the sum mod 2^8, and the two carries are the top bits of the wider sums. -/
theorem aluAdd8CarriesAreSumBits : Obligations.AluAdd8CarriesAreSumBits := by
  intro dst src
  refine ⟨?_, ?_, ?_⟩
  · rw [aluAdd8_result, BitVec.setWidth_add _ _ (by decide), BitVec.setWidth_setWidth_of_le _ (by decide),
      BitVec.setWidth_setWidth_of_le _ (by decide), BitVec.setWidth_eq, BitVec.setWidth_eq]
  · rw [getLsbD_setWidth_succ_add]
    rfl
  · rw [getLsbD_setWidth_succ_add, BitVec.toNat_setWidth, BitVec.toNat_setWidth, ← lowNibble_toNat, ← lowNibble_toNat]
    rfl

theorem aluSub8_result (dst src : Byte) : (aluSub8 dst src).result = dst - src := by
  simp [aluSub8, Int.sub_eq_add_neg, BitVec.sub_eq_add_neg, BitVec.ofInt_add, BitVec.ofInt_neg]

/-- Settles O22: a difference is zero exactly on equal operands, and a low nibble is the remainder by 16. -/
theorem aluSub8FollowsSpecReading : Obligations.AluSub8FollowsSpecReading := by
  intro dst src
  refine ⟨aluSub8_result dst src, ?_, rfl, ?_, rfl⟩
  · have hz : (aluSub8 dst src).flags.z = decide ((aluSub8 dst src).result = 0#8) := rfl
    rw [hz, aluSub8_result]
    exact decide_eq_decide.mpr sub_eq_zero
  · rw [← lowNibble_toNat, ← lowNibble_toNat]
    rfl

/-- AF after ADD A, B depends on A and B alone: no old flag enters (R121). -/
theorem afAfterAdd_congr {s t : State} (ha : readReg8 .a s = readReg8 .a t) (hb : readReg8 .b s = readReg8 .b t) :
    afAfterAdd s = afAfterAdd t := by
  apply pair_ext
  · rw [highByte_afAfterAdd, highByte_afAfterAdd, ha, hb]
  · rw [lowByte_afAfterAdd, lowByte_afAfterAdd, ha, hb]

theorem afAfterAdd_low_zero (s : State) : afAfterAdd s &&& 0x000F#16 = 0#16 := by
  rw [afLow_zero_iff_lowByte, lowByte_afAfterAdd, packFlags_and_flagsMask]

/-- A after ADD A, B, in any state `u` that then holds the new AF. -/
theorem readReg8_a_afAfterAdd (u s : State) :
    readReg8 .a (u.setAf (afAfterAdd s)) = (aluAdd8 (readReg8 .a s) (readReg8 .b s)).result := by
  rw [readReg8_a, State.setAf_af, highByte_afAfterAdd]

/-- The four flags after ADD A, B, in any state `u` that then holds the new AF. -/
theorem readFlags_afAfterAdd (u s : State) :
    readFlags (u.setAf (afAfterAdd s)) = (aluAdd8 (readReg8 .a s) (readReg8 .b s)).flags := by
  rw [readFlags, readReg8_f, State.setAf_af, lowByte_afAfterAdd, packFlags_and_flagsMask, unpackFlags_packFlags]

/-- H of R121 with the low nibbles as remainders. -/
theorem aluAdd8_h (dst src : Byte) :
    (aluAdd8 dst src).flags.h = decide (0x0F < dst.toNat % 16 + src.toNat % 16) := by
  rw [← lowNibble_toNat, ← lowNibble_toNat]
  rfl

/-- Settles O8: the one new cell is `afAfterAdd`, whose halves are ALU_ADD8's result and packed flags. -/
theorem addABCompletesWithSumAndFlags : Obligations.AddABCompletesWithSumAndFlags := by
  intro s
  have hflags := readFlags_afAfterAdd s s
  refine ⟨s.setAf (afAfterAdd s), exec_addAB s, ?_, ?_, congrArg Flags.n hflags, ?_, congrArg Flags.c hflags,
    readReg8_f_eq_packFlags _, afAfterAdd_low_zero s, rfl, rfl, rfl, rfl, rfl, rfl, rfl, fun _ => rfl⟩
  · rw [readReg8_a_afAfterAdd, aluAdd8_result_toNat]
  · exact (congrArg Flags.z hflags).trans (aluAdd8_z _ _)
  · exact (congrArg Flags.h hflags).trans (aluAdd8_h _ _)

/-- Settles O10: the Step ends in `afAfterAdd` over the advanced PC. -/
theorem stepOnAddByteAddsBToA : Obligations.StepOnAddByteAddsBToA := by
  intro s hrun hpc hbyte
  have hflags := readFlags_afAfterAdd (advancePc s) s
  have hresult := readReg8_a_afAfterAdd (advancePc s) s
  refine ⟨(advancePc s).setAf (afAfterAdd s), (step_eq_next_iff s _).mpr ⟨hrun, hpc, .inr ⟨hbyte, rfl⟩⟩,
    advancePc_pc_toNat s, ?_, ?_, congrArg Flags.n hflags, ?_, congrArg Flags.c hflags,
    afAfterAdd_low_zero s, rfl, rfl, rfl, rfl, rfl, rfl, fun _ => rfl⟩
  · rw [hresult, aluAdd8_result_toNat]
  · rw [hresult]
    exact congrArg Flags.z hflags
  · exact (congrArg Flags.h hflags).trans (aluAdd8_h _ _)

/-- Settles O23: a flag write changes neither A nor B, and ADD A, B replaces the whole cell it changed. -/
theorem addABIgnoresOldFlags : Obligations.AddABIgnoresOldFlags := by
  intro s f b
  rw [exec_addAB, exec_addAB, afAfterAdd_congr (readReg8_a_writeFlag f b s) rfl]
  rfl

/-- Settles O13: the causes of a fault mention PC, the store and RUN alone, and ADD's new AF depends on A and B. -/
theorem stepReadsOnlyPcStoreRunAAndB : Obligations.StepReadsOnlyPcStoreRunAAndB := by
  intro s t hpc hmem hrun ha hb
  refine ⟨fun e => by rw [step_eq_fault_iff_cause, step_eq_fault_iff_cause, hpc, hmem, hrun], fun s' hs => ?_⟩
  have hnext : (advancePc t).pc = (advancePc s).pc := congrArg (· + 1#16) hpc.symm
  obtain ⟨srun, slt, ⟨hbyte, rfl⟩ | ⟨hbyte, rfl⟩⟩ := (step_eq_next_iff s s').mp hs
  · refine ⟨advancePc t, (step_eq_next_iff t _).mpr ?_, hnext, hmem.symm, hrun.symm, ha.symm, fun hadd => ?_⟩
    · rw [← hpc, ← hmem, ← hrun]
      exact ⟨srun, slt, .inl ⟨hbyte, rfl⟩⟩
    · exact absurd (hbyte.symm.trans hadd) (by decide)
  · have haf : afAfterAdd t = afAfterAdd s := afAfterAdd_congr ha.symm hb.symm
    refine ⟨(advancePc t).setAf (afAfterAdd t), (step_eq_next_iff t _).mpr ?_, hnext, hmem.symm, hrun.symm, ?_,
      fun _ => ?_⟩
    · rw [← hpc, ← hmem, ← hrun]
      exact ⟨srun, slt, .inr ⟨hbyte, rfl⟩⟩
    · rw [readReg8_a, readReg8_a, State.setAf_af, State.setAf_af, haf]
    · rw [readReg8_f, readReg8_f, State.setAf_af, State.setAf_af, haf]

end Sys2Proof.Machine
end

section
/-! PROOFS. Fetch and dispatch (40_engine.md R91 to R97): a Step by the byte it fetches, and by the fault it ends in. -/

namespace Sys2Proof.Machine

/-- The host is told what the meaning answered (R90, R94). -/
theorem hostOutcome_finishStep (before : State) (o : Host.Outcome State Fault Refusal) :
    hostOutcome (finishStep before o) = o := by
  cases o <;> rfl

/-- A running machine whose fetch succeeds dispatches the byte it fetched (R91, R95). -/
theorem stepFull_of_fetch {s : State} {op : Byte} (hrun : s.run = .running)
    (hfetch : memRead s.mem s.pc .fetch = .ok op) : stepFull s = dispatchByte s op := by
  simp only [stepFull, hrun, hfetch]

theorem step_of_instr {s : State} {op : Byte} {i : Instr} (hrun : s.run = .running)
    (hfetch : memRead s.mem s.pc .fetch = .ok op) (hdec : decode op = .instr i) : step s = exec i (advancePc s) := by
  simp only [step, stepFull_of_fetch hrun hfetch, dispatchByte, hdec, hostOutcome_finishStep]

theorem step_of_unimplemented {s : State} {op op' : Byte} (hrun : s.run = .running)
    (hfetch : memRead s.mem s.pc .fetch = .ok op) (hdec : decode op = .unimplemented op') :
    step s = .fault (.unimplementedOpcode op' s.pc) := by
  simp only [step, stepFull_of_fetch hrun hfetch, dispatchByte, hdec, raise, hostOutcome]

/-- UNIMPLEMENTED names the byte it was decoded from (R75). -/
theorem decode_eq_unimplemented {op op' : Byte} (h : decode op = .unimplemented op') : op' = op := by
  rcases decode_cases op with ⟨-, hd⟩ | ⟨-, hd⟩ | ⟨-, -, hd⟩
  · cases hd.symm.trans h
  · cases hd.symm.trans h
  · cases hd.symm.trans h
    rfl

/-- A faulted machine repeats its fault and changes nothing (R97). -/
theorem stepFull_of_faulted {s : State} {e : Fault} (h : s.run = .faulted e) :
    stepFull s = { state := s, outcome := .fault e } := by
  simp only [stepFull, h]

theorem State.setRun_self {s : State} {r : RunStatus} (h : s.run = r) : s.setRun r = s := by
  subst h
  rfl

/-- A faulting Step is atomic: what it leaves is fault entry from the state it began in (R96, R97). -/
theorem stepFull_state_of_fault {s : State} {e : Fault} (h : (stepFull s).outcome = .fault e) :
    (stepFull s).state = s.setRun (.faulted e) := by
  rcases stepFull_cases s with ⟨e', hrun, hs⟩ | ⟨-, -, hs⟩ | ⟨-, -, -, hs⟩ | ⟨-, -, -, hs⟩ | ⟨-, -, -, -, hs⟩ <;>
    rw [hs] at h ⊢ <;> cases h
  · exact (State.setRun_self hrun).symm
  · rfl
  · rfl

/-- Settles O5: the fetched byte is dispatched, and the host is told what its meaning answers. -/
theorem stepRunsDecodedInstruction : Obligations.StepRunsDecodedInstruction := fun _ _ _ hrun hfetch hdec =>
  step_of_instr hrun hfetch hdec

/-- Settles O15: PC is among the fields that fault entry keeps. -/
theorem faultingStepIsAtomic : Obligations.FaultingStepIsAtomic := by
  intro s e h
  have hstate := stepFull_state_of_fault h
  exact ⟨hstate, by rw [hstate, State.setRun_pc]⟩

/-- Settles O17: the fetch beyond the store is a cause of its own, and fault entry sets RUN alone. -/
theorem fetchBeyondStoreFaults : Obligations.FetchBeyondStoreFaults := by
  intro s hrun hpc
  have hstep : step s = .fault (.outOfRangeAddress s.pc .fetch) :=
    (step_eq_fault_iff_cause s _).mpr (.inr (.inl ⟨hrun, hpc, rfl⟩))
  exact ⟨hstep, stepFull_state_of_fault ((step_eq_fault_iff s _).mp hstep)⟩

/-- Settles O1: the decoder and the listing evaluated on the spec's bytes. -/
theorem decodesSpecOpcodeBytes : Obligations.DecodesSpecOpcodeBytes := by
  unfold Obligations.DecodesSpecOpcodeBytes
  decide

/-- Settles O3: both directions are the decoder's characterisation; the rest is the decoder's default. -/
theorem decodeAndEncodeAgree : Obligations.DecodeAndEncodeAgree := by
  refine ⟨fun i => ?_, fun op i h => ?_, fun op h => ?_⟩
  · cases i <;> rfl
  · rcases (decode_eq_instr_iff op i).mp h with ⟨rfl, rfl⟩ | ⟨rfl, rfl⟩ <;> rfl
  · rcases decode_cases op with ⟨h0, -⟩ | ⟨h8, -⟩ | ⟨-, -, hd⟩
    · exact absurd h0.symm (h .nop)
    · exact absurd h8.symm (h .addAB)
    · exact hd

/-- The default of the opcode map, read from the decoder (R72). -/
theorem decode_eq_unimplemented_self_iff (op : Byte) :
    decode op = .unimplemented op ↔ op ≠ 0x00#8 ∧ op ≠ 0x80#8 := by
  rcases decode_cases op with ⟨rfl, hd⟩ | ⟨rfl, hd⟩ | ⟨h0, h8, hd⟩
  · simp [hd]
  · simp [hd]
  · simp [hd, h0, h8]

/-- The unimplemented values are the 256 byte values without 0 and 128 (0x80). -/
theorem filter_unimplemented_eq_erase :
    (List.range 256).filter (fun k => decide (decode (BitVec.ofNat 8 k) = .unimplemented (BitVec.ofNat 8 k))) =
      ((List.range 256).erase 0).erase 128 := by
  rw [(List.nodup_range.erase 0).erase_eq_filter, List.nodup_range.erase_eq_filter, List.filter_filter]
  refine List.filter_congr fun k hk => ?_
  have hlt : k < 256 := List.mem_range.mp hk
  rw [Bool.eq_iff_iff]
  simp [decode_eq_unimplemented_self_iff, BitVec.toNat_eq, Nat.mod_eq_of_lt hlt, and_comm]

/-- Settles O4: two of the 256 values are taken away. -/
theorem opcodeMapHas254UnimplementedValues : Obligations.OpcodeMapHas254UnimplementedValues := by
  have h0 : 0 ∈ List.range 256 := by simp
  have h128 : 128 ∈ (List.range 256).erase 0 := (List.mem_erase_of_ne (by decide)).mpr (by simp)
  rw [Obligations.OpcodeMapHas254UnimplementedValues, filter_unimplemented_eq_erase, List.length_erase_of_mem h128,
    List.length_erase_of_mem h0, List.length_range]

end Sys2Proof.Machine
end

section
/-! PROOFS. The Memory Bus (20_memory.md R50 to R54, R62): bounds, a byte written and then fetched, and the bytes no
Step reaches. -/

namespace Sys2Proof.Machine

theorem memRead_of_lt {m : Memory} {addr : Word} (k : AccessKind) (h : addr.toNat < m.size) :
    memRead m addr k = .ok (m.byteAt addr.toNat) :=
  if_neg (Nat.not_le.mpr h)

theorem memRead_of_le {m : Memory} {addr : Word} (k : AccessKind) (h : m.size ≤ addr.toNat) :
    memRead m addr k = .error (.outOfRangeAddress addr k) :=
  if_pos h

theorem memWrite_of_lt {m : Memory} {addr : Word} (v : Byte) (h : addr.toNat < m.size) :
    memWrite m addr v = .ok (m.setByte addr.toNat v) :=
  if_neg (Nat.not_le.mpr h)

theorem memWrite_of_le {m : Memory} {addr : Word} (v : Byte) (h : m.size ≤ addr.toNat) :
    memWrite m addr v = .error (.outOfRangeAddress addr .write) :=
  if_pos h

theorem memRead_setByte_same {m : Memory} (hwf : m.wf) {addr : Word} (h : addr.toNat < m.size) (v : Byte)
    (k : AccessKind) : memRead (m.setByte addr.toNat v) addr k = .ok v := by
  have hlt : addr.toNat < (m.setByte addr.toNat v).size := h
  rw [memRead_of_lt k hlt, Memory.byteAt_setByte_same hwf]

/-- Settles O36: the two sides of the bound. -/
theorem memReadIsBoundsChecked : Obligations.MemReadIsBoundsChecked := fun _ _ k => ⟨memRead_of_lt k, memRead_of_le k⟩

/-- Settles O37: inside the store the new store is `setByte`, with its laws of read after write. -/
theorem memWriteStoresExactlyOneByte : Obligations.MemWriteStoresExactlyOneByte := fun m _ v hwf =>
  ⟨fun h => ⟨_, memWrite_of_lt v h, rfl, Memory.byteAt_setByte_same hwf _ v, fun _ => m.byteAt_setByte_ne v⟩,
    memWrite_of_le v⟩

/-- Settles O18: every address is in bounds, and the one fault left to a running machine is UnimplementedOpcode. -/
theorem conformingStoreHasNoAddressFault : Obligations.ConformingStoreHasNoAddressFault := by
  intro s hsize
  refine ⟨fun a k => memRead_of_lt k (addr_lt_of_conforming hsize a),
    fun a v => ⟨_, memWrite_of_lt v (addr_lt_of_conforming hsize a)⟩, fun hrun a k h => ?_⟩
  obtain ⟨-, -, he⟩ := (step_faults_iff hrun hsize _).mp h
  cases he

/-- Settles O38: the write is in bounds, so the fetch reads it back, and a Step is determined by what it fetches. -/
theorem hostWriteIsSeenByNextFetch : Obligations.HostWriteIsSeenByNextFetch := by
  rintro s v ⟨hsize, hwf, -, -⟩ hrun t
  have hpc : s.pc.toNat < s.mem.size := addr_lt_of_conforming hsize s.pc
  have ht : t = s.setMem (s.mem.setByte s.pc.toNat v) := by
    simp only [t, applyEvent, busWrite, memWrite_of_lt v hpc]
  have hfetch : memRead t.mem t.pc .fetch = .ok v := by
    rw [ht]
    exact memRead_setByte_same hwf hpc v .fetch
  have htrun : t.run = .running := by rw [ht]; exact hrun
  exact ⟨by rw [ht]; rfl, hfetch, fun _ => step_of_instr htrun hfetch, step_of_unimplemented htrun hfetch⟩

/-- Settles O6: the placed state is running and fetches the byte placed, which decides the Step. -/
theorem placedWordIsRunNext : Obligations.PlacedWordIsRunNext := by
  intro s w hsize hwf
  have hmod : BitVec.ofNat 8 (w % 2 ^ 8) = BitVec.ofNat 8 w :=
    BitVec.eq_of_toNat_eq (by simp)
  have hfetch : memRead (s.withFetchWord 8 w).mem (s.withFetchWord 8 w).pc .fetch = .ok (BitVec.ofNat 8 w) := by
    rw [State.withFetchWord, hmod]
    exact memRead_setByte_same hwf (addr_lt_of_conforming hsize s.pc) _ .fetch
  rw [decodeTableWord, hmod]
  cases hdec : decode (BitVec.ofNat 8 w) with
  | instr i => exact step_of_instr rfl hfetch hdec
  | unimplemented op =>
    cases decode_eq_unimplemented hdec
    exact step_of_unimplemented rfl hfetch hdec

/-- Settles O39: PC is below 0x10000, so both stores give the fetch the same byte, and no Step reads another. -/
theorem bytesBeyond64KAreUnreachable : Obligations.BytesBeyond64KAreUnreachable := by
  intro s m hs hm hagree
  have hbyte : m.byteAt s.pc.toNat = s.mem.byteAt s.pc.toNat := hagree _ s.pc.isLt
  have hspc : s.pc.toNat < s.mem.size := addr_lt_of_conforming hs s.pc
  have hmpc : s.pc.toNat < m.size := addr_lt_of_conforming hm s.pc
  constructor
  · intro e
    simp only [step_eq_fault_iff_cause, State.setMem_run, State.setMem_pc, State.setMem_mem, hbyte, hspc, hmpc,
      Nat.not_le.mpr hspc, Nat.not_le.mpr hmpc]
  · intro t ht
    obtain ⟨hrun, -, hcase⟩ := (step_eq_next_iff s t).mp ht
    refine (step_eq_next_iff _ _).mpr ⟨hrun, hmpc, ?_⟩
    rw [State.setMem_mem, State.setMem_pc, hbyte]
    rcases hcase with ⟨hb, rfl⟩ | ⟨hb, rfl⟩
    · exact .inl ⟨hb, rfl⟩
    · exact .inr ⟨hb, rfl⟩

end Sys2Proof.Machine
end

section
/-! PROOFS. Construction, the host's events and the invariant (70_reset_and_hazards.md R170, 10_state.md R31, R35, R38).
The invariant speaks of the store, AF and RUN: one lemma says what each of them needs when it is replaced, every event
replaces at most those, and a script is a sequence of events. -/

namespace Sys2Proof.Machine

theorem setAf_keeps_inv {s : State} (h : s.Inv) {v : Word} (hv : v &&& 0x000F#16 = 0#16) : (s.setAf v).Inv := by
  obtain ⟨hsize, hwf, -, hrun⟩ := h
  exact ⟨hsize, hwf, hv, hrun⟩

theorem setRun_keeps_inv {s : State} (h : s.Inv) {r : RunStatus} (hr : r.legal = true) : (s.setRun r).Inv := by
  obtain ⟨hsize, hwf, haf, -⟩ := h
  exact ⟨hsize, hwf, haf, hr⟩

theorem setByte_keeps_inv {s : State} (h : s.Inv) {a : Nat} (ha : a < s.mem.size) (v : Byte) :
    (s.setMem (s.mem.setByte a v)).Inv := by
  obtain ⟨hsize, hwf, haf, hrun⟩ := h
  exact ⟨hsize, Memory.setByte_wf hwf ha v, haf, hrun⟩

/-- Every Step keeps the invariant, a faulting one too: its record is legal, since a fetch is never out of range. -/
theorem stepFull_keeps_inv {s : State} (h : s.Inv) : (stepFull s).state.Inv := by
  have ⟨hsize, _, _, _⟩ := h
  rcases stepFull_cases s with
    ⟨e, -, hs⟩ | ⟨-, hbeyond, -⟩ | ⟨-, -, -, hs⟩ | ⟨-, -, -, hs⟩ | ⟨-, -, h0, h8, hs⟩
  · rwa [hs]
  · exact absurd (addr_lt_of_conforming hsize s.pc) (Nat.not_lt.mpr hbeyond)
  · rw [hs]
    exact h
  · rw [hs]
    have hadv : (advancePc s).Inv := h
    exact setAf_keeps_inv hadv (afAfterAdd_low_zero s)
  · rw [hs]
    exact setRun_keeps_inv h (by simp [RunStatus.legal, h0, h8])

/-- A write of A keeps F's half of the cell, a write of F is masked, and the others are other cells. -/
theorem writeReg8_keeps_inv {s : State} (h : s.Inv) (r : Reg8) (v : Byte) : (writeReg8 r v s).Inv := by
  have ⟨_, _, haf, _⟩ := h
  cases r with
  | a =>
    refine setAf_keeps_inv h ?_
    rw [afLow_zero_iff_lowByte, lowByte_withHighByte]
    exact (afLow_zero_iff_lowByte s.af).mp haf
  | f =>
    refine setAf_keeps_inv h ?_
    rw [afLow_zero_iff_lowByte, lowByte_withLowByte, and_flagsMask_and_flagsMask]
  | b | c | d | e | h | l => exact h

theorem writeReg16_keeps_inv {s : State} (h : s.Inv) (r : Reg16) (v : Word) : (writeReg16 r v s).Inv := by
  cases r with
  | af => exact setAf_keeps_inv h (and_afMask_low_zero v)
  | bc | de | hl | pc | sp => exact h

theorem writeFlag_keeps_inv {s : State} (h : s.Inv) (f : Flag) (b : Bool) : (writeFlag f b s).Inv := by
  have ⟨_, _, haf, _⟩ := h
  exact setAf_keeps_inv h (writeFlag_afLow_zero haf f b)

/-- A bus write in range is `setByte`; out of range it is no change (log 17). -/
theorem busWrite_keeps_inv {s : State} (h : s.Inv) (addr : Word) (v : Byte) : (busWrite s addr v).state.Inv := by
  have ⟨hsize, _, _, _⟩ := h
  have hlt : addr.toNat < s.mem.size := addr_lt_of_conforming hsize addr
  rw [busWrite, memWrite_of_lt v hlt]
  exact setByte_keeps_inv h hlt v

theorem storeWrite_keeps_inv {s : State} (h : s.Inv) (addr : Nat) (v : Byte) : (storeWrite s addr v).state.Inv := by
  by_cases hlt : addr < s.mem.size
  · rw [storeWrite, if_pos hlt]
    exact setByte_keeps_inv h hlt v
  · rwa [storeWrite, if_neg hlt]

/-- No event breaks the invariant: the accessors by their lemmas, both syncs because they change nothing. -/
theorem applyEvent_keeps_inv {s : State} (h : s.Inv) (ev : HostEvent) : (applyEvent s ev).state.Inv := by
  have ⟨_, _, haf, _⟩ := h
  cases ev with
  | step => exact stepFull_keeps_inv h
  | setReg8 r v => exact writeReg8_keeps_inv h r v
  | setReg16 r v => exact writeReg16_keeps_inv h r v
  | setFlag f b => exact writeFlag_keeps_inv h f b
  | syncToRegister => rwa [applyEvent, syncToRegister_eq_self haf]
  | syncFromRegister => rwa [applyEvent, syncFromRegister_eq_self]
  | busWrite addr v => exact busWrite_keeps_inv h addr v
  | storeWrite addr v => exact storeWrite_keeps_inv h addr v

/-- The state told to the host is the one the Step leaves. -/
theorem stepFull_of_step_next {s t : State} (h : step s = .next t) : stepFull s = { state := t, outcome := .ok } := by
  rw [step] at h
  rcases hs : stepFull s with ⟨u, _ | e | r⟩ <;> rw [hs, hostOutcome] at h <;> cases h
  rfl

/-- Settles O45: induction on the script, one event at a time. -/
theorem everyScriptKeepsInvariant : Obligations.EveryScriptKeepsInvariant := by
  intro events
  induction events with
  | nil => exact fun _ h => h
  | cons ev rest ih => exact fun s h => ih _ (applyEvent_keeps_inv h ev)

/-- Settles O44: the next state is the one `stepFull` leaves. -/
theorem stepKeepsInvariant : Obligations.StepKeepsInvariant := by
  intro s t h hstep
  have hkeeps : (stepFull s).state.Inv := stepFull_keeps_inv h
  rwa [stepFull_of_step_next hstep] at hkeeps

/-- A Step leaves AF as it was or replaces it by ADD's (R36). -/
theorem stepFull_af_cases (s : State) :
    (stepFull s).state.af = s.af ∨ (stepFull s).state.af = afAfterAdd s := by
  rcases stepFull_cases s with ⟨e, -, hs⟩ | ⟨-, -, hs⟩ | ⟨-, -, -, hs⟩ | ⟨-, -, -, hs⟩ | ⟨-, -, -, -, hs⟩ <;>
    simp [hs, raise, enterFault, advancePc]

/-- Settles O35: the low byte of the cell is F once its hard-wired bits are zero, which an Ok Step keeps. -/
theorem flagsBytePackedAfterEveryOkStep : Obligations.FlagsBytePackedAfterEveryOkStep := by
  intro s hlow _
  have htlow : (stepFull s).state.af &&& 0x000F#16 = 0#16 := by
    rcases stepFull_af_cases s with haf | haf <;> rw [haf]
    · exact hlow
    · exact afAfterAdd_low_zero s
  rw [extractLsb'_zero_eight, lowByte_of_afLow_zero htlow]
  refine ⟨readReg8_f_eq_packFlags _, ?_⟩
  rw [readReg8_f]
  exact and_flagsMask_low_zero _

theorem writeReg8_run (r : Reg8) (v : Byte) (s : State) : (writeReg8 r v s).run = s.run := by
  obtain ⟨-, -, hrun, -⟩ := writeReg8_frame r v s
  exact hrun

theorem writeReg8_mem (r : Reg8) (v : Byte) (s : State) : (writeReg8 r v s).mem = s.mem := by
  obtain ⟨-, -, -, hmem⟩ := writeReg8_frame r v s
  exact hmem

theorem writeReg16_run (r : Reg16) (v : Word) (s : State) : (writeReg16 r v s).run = s.run :=
  (writeReg16_frame r v s).left

theorem writeReg16_mem (r : Reg16) (v : Word) (s : State) : (writeReg16 r v s).mem = s.mem :=
  (writeReg16_frame r v s).right

/-- No event but a Step changes RUN (R38; beyond the store: log 17, log 18). -/
theorem applyEvent_run {s : State} {ev : HostEvent} (h : ev ≠ .step) : (applyEvent s ev).state.run = s.run := by
  cases ev with
  | step => exact absurd rfl h
  | setReg8 r v => exact writeReg8_run r v s
  | setReg16 r v => exact writeReg16_run r v s
  | setFlag f b => rfl
  | syncToRegister => rfl
  | syncFromRegister => rfl
  | busWrite addr v =>
    by_cases hlt : addr.toNat < s.mem.size
    · simp [applyEvent, busWrite, memWrite_of_lt v hlt]
    · simp [applyEvent, busWrite, memWrite_of_le v (Nat.not_lt.mp hlt)]
  | storeWrite addr v => by_cases hlt : addr < s.mem.size <;> simp [applyEvent, storeWrite, hlt]

/-- A recorded fault outlasts every event: a Step repeats it, and no other event changes RUN (R97). -/
theorem applyEvent_keeps_faulted {s : State} {e : Fault} (h : s.run = .faulted e) (ev : HostEvent) :
    (applyEvent s ev).state.run = .faulted e := by
  by_cases hev : ev = .step
  · subst hev
    rw [applyEvent, stepFull_of_faulted h]
    exact h
  · exact (applyEvent_run hev).trans h

theorem runEvents_keeps_faulted {e : Fault} (events : List HostEvent) {s : State} (h : s.run = .faulted e) :
    (runEvents s events).run = .faulted e := by
  induction events generalizing s with
  | nil => exact h
  | cons ev rest ih => exact ih (applyEvent_keeps_faulted h ev)

/-- Settles O16: RUN outlasts the script, and a Step of a faulted machine repeats the record. -/
theorem faultedStatusOutlastsEveryScript : Obligations.FaultedStatusOutlastsEveryScript := by
  intro events s e h
  have hrun := runEvents_keeps_faulted events h
  exact ⟨hrun, stepFull_of_faulted hrun, (step_eq_fault_iff_cause _ e).mpr (.inl hrun)⟩

/-- Settles O46: RUN by `applyEvent_run`, the setters' stores by their frames. -/
theorem hostWritesKeepRun : Obligations.HostWritesKeepRun :=
  ⟨fun _ _ => applyEvent_run, fun s r v => ⟨rfl, writeReg8_mem r v s⟩,
    fun s r v => ⟨rfl, writeReg16_mem r v s⟩, fun _ _ _ => ⟨rfl, rfl⟩⟩

/-- Settles O47: both writes check the bound before they store. -/
theorem hostWriteBeyondStoreChangesNothing : Obligations.HostWriteBeyondStoreChangesNothing := by
  constructor
  · intro s addr v h
    simp only [applyEvent, busWrite, memWrite_of_le v h]
  · intro s addr v h
    simp only [applyEvent, storeWrite, if_neg (Nat.not_lt.mpr h)]

/-- Settles O48: `stepInstance` modifies the one entry. -/
theorem instancesShareNoState : Obligations.InstancesShareNoState := by
  intro instances k j
  rw [stepInstance, List.getElem?_modify]
  by_cases h : j = k
  · simp [h]
  · simp [h, Ne.symm h]

/-- Settles O40: each supplied value is what its cell takes, AF under its mask. -/
theorem constructionSetsWhatCallerSupplies : Obligations.ConstructionSetsWhatCallerSupplies := by
  intro l
  refine ⟨rfl, rfl, rfl, fun v h => ?_, fun v h => ?_, fun v h => ?_, fun v h => ?_, fun v h => ?_⟩ <;>
    simp only [construct, h, Option.getD_some]
  rfl

/-- Settles O41: the store is the caller's duty, and AF is masked whatever value it starts from. -/
theorem constructionMeetsInvariant : Obligations.ConstructionMeetsInvariant := by
  rintro l ⟨hsize, hwf⟩
  exact ⟨hsize, hwf, and_afMask_low_zero _, rfl⟩

/-- Settles O42: every register is supplied, so no free value enters. -/
theorem resetIsAConstruction : Obligations.ResetIsAConstruction := by
  refine ⟨?_, rfl⟩
  simp only [construct, resetLaunch, Option.getD_some]
  rfl

/-- Settles O43: State.reset is the construction of a conforming launch. -/
theorem resetMeetsInvariant : Obligations.ResetMeetsInvariant := by
  obtain ⟨hreset, -⟩ := resetIsAConstruction
  rw [Obligations.ResetMeetsInvariant, ← hreset]
  exact constructionMeetsInvariant resetLaunch (by decide)

end Sys2Proof.Machine
end
